-- ==== Sys2Proof/Word.lean ====
section
/-! DEFINITION. Words, bytes and the operand field of the accumulator machine (00_scope.md R5, R6).

A word is a 16-bit value, a byte an 8-bit value, and an instruction's operand a 12-bit field.
Byte order and bit-field helpers stand in Decode.lean. -/

namespace Sys2Proof

/-- A 16-bit word: ACC, IR, PC, SP, a return address, a memory word (R5, R6). -/
abbrev Word := BitVec 16

/-- An 8-bit byte, the unit of memory (R6, R40). -/
abbrev Byte := BitVec 8

/-- The 12-bit operand field `IR[11:0]` (R60). -/
abbrev Operand := BitVec 12

end Sys2Proof
end

