-- ==== Sys2Proof/Syntax.lean ====
section
/-! DEFINITION. The instructions: one constructor per row of spec/opcode_table.json (R66).

A field the hardware ignores is kept (the operand of END and of an illegal word, `IR[11:8]` of PRC), so that
an instruction stands for exactly one word (log entry 3). -/

namespace Sys2Proof

/-- One constructor per row of the opcode table; the payload is the row's operand class (R62). -/
inductive Instr where
  /-- END, opcode 0x0: the end-of-code sentinel; the operand is ignored (R67, R139). -/
  | endSentinel (ignored : Operand)
  /-- LDA, opcode 0x1: load accumulator (R110). -/
  | lda (addr : Operand)
  /-- STA, opcode 0x2: store accumulator (R111). -/
  | sta (addr : Operand)
  /-- ADD, opcode 0x3: add memory to accumulator (R112). -/
  | add (addr : Operand)
  /-- SUB, opcode 0x4: subtract memory from accumulator (R113). -/
  | sub (addr : Operand)
  /-- JMP, opcode 0x5: jump (R130). -/
  | jmp (target : Operand)
  /-- CAL, opcode 0x6: call subroutine (R135). -/
  | cal (target : Operand)
  /-- MUL, opcode 0x7: multiply accumulator by memory (R114). -/
  | mul (addr : Operand)
  /-- IAC, the word 0x8002: increment accumulator (R115). -/
  | iac
  /-- RET, the word 0x8005: return from subroutine (R136). -/
  | ret
  /-- HALT, opcode 0x8 with any other sub-code (R138). -/
  | halt (subCode : Operand)
  /-- BRZ, opcode 0x9: branch if zero (R131). -/
  | brz (target : Operand)
  /-- BRN, opcode 0xA: branch if negative (R132). -/
  | brn (target : Operand)
  /-- PRT, opcode 0xB: print number (R151). -/
  | prt (addr : Operand)
  /-- PRC, opcode 0xC: print character; `ignored` is `IR[11:8]` (R64, R152). -/
  | prc (ignored : BitVec 4) (code : Byte)
  /-- PRS, opcode 0xD: print string (R153). -/
  | prs (addr : Operand)
  /-- ILLEGAL_E, opcode 0xE (R68, R174). -/
  | illegalE (ignored : Operand)
  /-- ILLEGAL_F, opcode 0xF (R68, R174). -/
  | illegalF (ignored : Operand)
  deriving DecidableEq, Repr

/-- The row of spec/opcode_table.json an instruction belongs to. -/
def Instr.mnemonic : Instr → String
  | .endSentinel _ => "END"
  | .lda _ => "LDA"
  | .sta _ => "STA"
  | .add _ => "ADD"
  | .sub _ => "SUB"
  | .jmp _ => "JMP"
  | .cal _ => "CAL"
  | .mul _ => "MUL"
  | .iac => "IAC"
  | .ret => "RET"
  | .halt _ => "HALT"
  | .brz _ => "BRZ"
  | .brn _ => "BRN"
  | .prt _ => "PRT"
  | .prc _ _ => "PRC"
  | .prs _ => "PRS"
  | .illegalE _ => "ILLEGAL_E"
  | .illegalF _ => "ILLEGAL_F"

end Sys2Proof
end

