-- ==== Sys2Proof/WellFormed.lean ====
section
/-! DEFINITION. Which terms of Instr are instructions of the machine.

The operand widths are in the types. The one check left is R65: the sub-codes 0x002 and 0x005 of opcode 0x8 are
IAC and RET, so no HALT carries them. -/

namespace Sys2Proof

/-- What is wrong with an ill-formed term. -/
inductive IllFormed where
  /-- A HALT with sub-code 0x002, whose word is IAC (R65). -/
  | haltSubCodeIsIac
  /-- A HALT with sub-code 0x005, whose word is RET (R65). -/
  | haltSubCodeIsRet
  deriving DecidableEq, Repr

/-- The check: `none` for an instruction, else what is wrong with the term. -/
def Instr.illFormed? : Instr → Option IllFormed
  | .halt subCode =>
    if subCode = 0x002#12 then some .haltSubCodeIsIac
    else if subCode = 0x005#12 then some .haltSubCodeIsRet
    else none
  | .endSentinel _ => none
  | .lda _ => none
  | .sta _ => none
  | .add _ => none
  | .sub _ => none
  | .jmp _ => none
  | .cal _ => none
  | .mul _ => none
  | .iac => none
  | .ret => none
  | .brz _ => none
  | .brn _ => none
  | .prt _ => none
  | .prc _ _ => none
  | .prs _ => none
  | .illegalE _ => none
  | .illegalF _ => none

/-- A term that stands for one of the 65536 words. -/
abbrev Instr.WellFormed (i : Instr) : Prop := i.illFormed? = none

end Sys2Proof
end

