-- ==== Sys2Proof/Decode.lean ====
section
/-! DEFINITION. From bytes to an instruction (30_encoding.md R60 to R71), and the encoder after it.

Every instruction is one big-endian 16-bit word with `op = IR[15:12]` and `operand = IR[11:0]`. -/

namespace Sys2Proof

/-- The word `{hi, lo}` of two bytes in address order (R44, R47). -/
def wordOfBytes (hi lo : Byte) : Word := hi ++ lo

/-- `v[15:8]`, the byte stored at the lower address (R45, R47). -/
def hiByte (v : Word) : Byte := v.extractLsb' 8 8

/-- `v[7:0]`, the byte stored at the higher address (R45, R47). -/
def loByte (v : Word) : Byte := v.extractLsb' 0 8

/-- The opcode field `IR[15:12]` (R60). -/
def opcodeField (ir : Word) : BitVec 4 := ir.extractLsb' 12 4

/-- The operand field `IR[11:0]` (R60). -/
def operandField (ir : Word) : Operand := ir.extractLsb' 0 12

/-- Opcode 0x8: the whole 12-bit operand is the sub-code (R65). -/
def decodeSubCode (opd : Operand) : Instr :=
  if opd = 0x002#12 then .iac
  else if opd = 0x005#12 then .ret
  else .halt opd

/-- The opcode map (R66, R71): the instruction of an opcode and an operand. -/
def decodeFields (op : BitVec 4) (opd : Operand) : Instr :=
  match op.toNat with
  | 0x0 => .endSentinel opd
  | 0x1 => .lda opd
  | 0x2 => .sta opd
  | 0x3 => .add opd
  | 0x4 => .sub opd
  | 0x5 => .jmp opd
  | 0x6 => .cal opd
  | 0x7 => .mul opd
  | 0x8 => decodeSubCode opd
  | 0x9 => .brz opd
  | 0xA => .brn opd
  | 0xB => .prt opd
  | 0xC => .prc (opd.extractLsb' 8 4) (opd.extractLsb' 0 8)
  | 0xD => .prs opd
  | 0xE => .illegalE opd
  | _ => .illegalF opd

/-- R71: decode is total on words and reads nothing but the word (R83). -/
def decodeWord (ir : Word) : Instr := decodeFields (opcodeField ir) (operandField ir)

/-- Why a list of bytes holds no instruction. -/
inductive DecodeError where
  /-- Fewer than the two bytes of one instruction word (R60). -/
  | truncated
  deriving DecidableEq, Repr

/-- Decoding of any list of bytes: the instruction in the first two, and the bytes after it. -/
def decode : List Byte → Except DecodeError (Instr × List Byte)
  | hi :: lo :: rest => .ok (decodeWord (wordOfBytes hi lo), rest)
  | [_] => .error .truncated
  | [] => .error .truncated

/-- The encoder: the word of an instruction, from the opcode map R66 (sub-codes of opcode 0x8: R65). -/
def encode : Instr → Word
  | .endSentinel x => 0x0#4 ++ x
  | .lda a => 0x1#4 ++ a
  | .sta a => 0x2#4 ++ a
  | .add a => 0x3#4 ++ a
  | .sub a => 0x4#4 ++ a
  | .jmp a => 0x5#4 ++ a
  | .cal a => 0x6#4 ++ a
  | .mul a => 0x7#4 ++ a
  | .iac => 0x8#4 ++ 0x002#12
  | .ret => 0x8#4 ++ 0x005#12
  | .halt s => 0x8#4 ++ s
  | .brz a => 0x9#4 ++ a
  | .brn a => 0xA#4 ++ a
  | .prt a => 0xB#4 ++ a
  | .prc h c => 0xC#4 ++ (h ++ c : Operand)
  | .prs a => 0xD#4 ++ a
  | .illegalE x => 0xE#4 ++ x
  | .illegalF x => 0xF#4 ++ x

/-- The bytes of an instruction in address order: high byte first (R61). -/
def encodeBytes (i : Instr) : List Byte := [hiByte (encode i), loByte (encode i)]

/-- The first `nbits` bits of `w` as a number, every bit above them zero. -/
def tableWord (nbits w : Nat) : Nat := w % 2 ^ nbits

/-- The instruction the decoder reads from a word of spec/opcode_table.json, laid out big-endian (R61).
A number of more than 16 bits is no instruction word. -/
def decodeTableWord (nbits w : Nat) : Option Instr :=
  let v := tableWord nbits w
  if v < 2 ^ 16 then
    match decode [hiByte (BitVec.ofNat 16 v), loByte (BitVec.ofNat 16 v)] with
    | .ok (i, _) => some i
    | .error _ => none
  else none

end Sys2Proof
end

