-- ==== Sys2Proof/Config.lean ====
section
/-! DEFINITION. The implementation parameters of R5 and the free value of option I2.

The three parameters the spec leaves open (`MEM_SIZE`, `STACK_BASE`, `STACK_TOP`) and the two model
options of `93_implementation_defined.md` (I1, I2) are one record. A machine is built with one such
record and no step changes it (log entry 1). -/

namespace Sys2Proof

/-- I1 `MISALIGNED_POLICY`: what a word access at an odd address does. -/
inductive MisalignedPolicy where
  /-- `BYTE_PAIR`, the hardware value (R48): the byte pair at `a` and `a + 1`. -/
  | bytePair
  /-- `FAULT`, the conservative model option of I1: the model refuses the access. -/
  | fault
  deriving DecidableEq, Repr

/-- I2 `OVERFLOW_POLICY`: what an exact result of magnitude 32768 or more writes. -/
inductive OverflowPolicy where
  /-- `WRAP`, the hardware value (R92): the magnitude modulo 2^15 with the sign of the exact result. -/
  | wrap
  /-- `DRAW`, the conservative model option of I2: any 16-bit word, a free draw per step. -/
  | draw
  deriving DecidableEq, Repr

/-- The parameters of R5. -/
structure Config where
  /-- `MEM_SIZE`, in bytes. -/
  memSize : Nat
  /-- `STACK_BASE`: the cursor of the empty stack. -/
  stackBase : Word
  /-- `STACK_TOP`: the cursor of the full stack. -/
  stackTop : Word
  /-- `MISALIGNED_POLICY` (I1). -/
  misaligned : MisalignedPolicy
  /-- `OVERFLOW_POLICY` (I2). -/
  overflow : OverflowPolicy
  deriving DecidableEq, Repr

/-- The reference configuration (R5): 4096 bytes, stack region 0x0000 to 0x00FE, and the hardware
value of both options (R48, R92). -/
def Config.reference : Config where
  memSize := 4096
  stackBase := 0x0000#16
  stackTop := 0x00FE#16
  misaligned := .bytePair
  overflow := .wrap

/-- The constraints R5 puts on the parameters. -/
abbrev Config.Valid (c : Config) : Prop :=
  c.stackBase.toNat % 2 = 0 ∧ c.stackTop.toNat % 2 = 0 ∧ c.stackBase.toNat ≤ c.stackTop.toNat ∧
    c.stackTop.toNat + 2 ≤ c.memSize ∧ 2 ≤ c.memSize ∧ c.memSize ≤ 65536

/-- Both options at the value the hardware takes (R48, R92). -/
abbrev Config.Hardware (c : Config) : Prop :=
  c.misaligned = .bytePair ∧ c.overflow = .wrap

/-- `STACK_CAPACITY` (R5, R137): how many return addresses the stack region holds. -/
def Config.stackCapacity (c : Config) : Nat :=
  (c.stackTop.toNat - c.stackBase.toNat) / 2

/-- The free draw of option I2: the word an out-of-range result writes under `OVERFLOW_POLICY = DRAW`
at the draw of that number. It has no body, so nothing can be proved of its value (log entry 2). -/
opaque Config.freeWord : Nat → Word

end Sys2Proof
end

