-- ==== Sys2Proof/Machine/Alu.lean ====
section
/-! DEFINITION. The sign-magnitude codec and the ALU (41_alu_codec.md R90 to R98). -/

namespace Sys2Proof.Machine

/-- `w[14:0]`, the magnitude field (R90). -/
def magnitude (w : Word) : BitVec 15 := w.extractLsb' 0 15

/-- `smdec(w)` (R90): the integer a word stands for. -/
def smdec (w : Word) : Int :=
  if w.msb then -((magnitude w).toNat : Int) else ((magnitude w).toNat : Int)

/-- `smenc(x)` (R91, R92): the sign of `x` and `abs(x) mod 2^15`. -/
def smenc (x : Int) : Word :=
  (if x < 0 then 1#1 else 0#1) ++ BitVec.ofNat 15 (x.natAbs % 2 ^ 15)

/-- The exact sum ADD encodes (R96). -/
def addExact (a b : Word) : Int := smdec a + smdec b

/-- The exact difference SUB encodes (R96). -/
def subExact (a b : Word) : Int := smdec a - smdec b

/-- The exact product MUL encodes (R96). -/
def mulExact (a b : Word) : Int := smdec a * smdec b

/-- The exact successor IAC encodes (R96). -/
def incExact (a : Word) : Int := smdec a + 1

/-- `alu_add` (R96). -/
def aluAdd (a b : Word) : Word := smenc (addExact a b)

/-- `alu_sub` (R96). -/
def aluSub (a b : Word) : Word := smenc (subExact a b)

/-- `alu_mul` (R96). -/
def aluMul (a b : Word) : Word := smenc (mulExact a b)

/-- `alu_inc` (R96). -/
def aluInc (a : Word) : Word := smenc (incExact a)

end Sys2Proof.Machine
end

