-- ==== Sys2Proof/Machine/Flags.lean ====
section
/-! DEFINITION. The flags a flag-setting instruction derives from the new ACC word (R94). -/

namespace Sys2Proof.Machine

/-- `Z` of `flags(w)`: all magnitude bits are zero (R25, R94). -/
def flagZ (w : Word) : Bool := magnitude w == 0#15

/-- `N` of `flags(w)`: the sign bit is set and the magnitude is not zero (R26, R94). -/
def flagN (w : Word) : Bool := w.msb && magnitude w != 0#15

end Sys2Proof.Machine
end

