-- ==== Sys2Proof/Machine/State.lean ====
section
/-! DEFINITION. The state of the machine (10_state.md R20 to R36), the reasons a step can stop, and reset.

State is the record of R20, field by field, and two fields of the model's own: the configuration the machine is
built with (log entry 1) and the counter of free draws of option I2 (log entry 2). -/

namespace Sys2Proof.Machine

/-- The memory array `M` (R32, R40): the bytes that differ from what an unlisted address reads as, by rising
address. Memory.wf in Ops.lean says the form. -/
abbrev Memory := List Host.Cell

/-- The fatal conditions of R170. -/
inductive FatalCondition where
  /-- `MEMORY_BOUNDS` (R171). -/
  | memoryBounds
  /-- `STACK_OVERFLOW` (R172). -/
  | stackOverflow
  /-- `STACK_UNDERFLOW` (R173). -/
  | stackUnderflow
  /-- `ILLEGAL_OPCODE` (R174). -/
  | illegalOpcode
  deriving DecidableEq, Repr

/-- The exit status of a run (R31, R170); its number is ExitStatus.code in Ops.lean. -/
inductive ExitStatus where
  /-- A normal stop: HALT or END (R84). -/
  | normal
  /-- A fatal stop (R176). -/
  | fatal (k : FatalCondition)
  deriving DecidableEq, Repr

/-- Which kind of stop happened (R31). -/
inductive StopCause where
  /-- `HALT_INSTR` (R138). -/
  | haltInstr
  /-- `END_SENTINEL` (R139). -/
  | endSentinel
  /-- `FATAL` (R176). -/
  | fatal
  deriving DecidableEq, Repr

/-- The stop record `STOP` (R31). -/
structure StopRecord where
  /-- Exit status. -/
  status : ExitStatus
  /-- Kind of stop. -/
  cause : StopCause
  /-- Address of the instruction word whose step stopped the run; for a fetch fault, the address fetched. -/
  stopPc : Word
  /-- The fetched word; `none` when the fetch itself faulted. -/
  stopIr : Option Word
  /-- The failing address, SP for a stack fault, else `none`. An address is kept without wrap (log entry 4). -/
  faultAddr : Option Nat
  deriving DecidableEq, Repr

/-- The engine's run state `RUN` (R30). -/
inductive RunState where
  /-- `RUNNING`: admits a step (R80). -/
  | running
  /-- `STOPPED`: terminal, admits no step (R88). -/
  | stopped
  deriving DecidableEq, Repr

/-- An output event sent to the I/O sink (R150). -/
inductive Event where
  /-- `Num(i)`, sent by PRT. -/
  | num (i : Int)
  /-- `Char(b)`, sent by PRC. -/
  | char (b : Byte)
  /-- `Str(bs)`, sent by PRS. -/
  | str (bs : List Byte)
  deriving DecidableEq, Repr

/-- What stops an operation before it has any effect: a fatal condition with its fault address (R7 `raise`), or an
access that option I1 refuses. -/
inductive Trap where
  /-- `raise K(fault_addr)`. -/
  | fatal (k : FatalCondition) (faultAddr : Option Nat)
  /-- A word access at the odd address `a` under `MISALIGNED_POLICY = FAULT` (I1). -/
  | misaligned (a : Nat)
  deriving DecidableEq, Repr

/-- The state of the machine (R20). -/
structure State where
  /-- `ACC`, the accumulator (R22). -/
  acc : Word
  /-- `PC`, the program counter (R23). -/
  pc : Word
  /-- `IR`, the instruction register, internal to a step (R24). -/
  ir : Word
  /-- `Z`, the zero flag (R25). -/
  z : Bool
  /-- `N`, the negative flag (R26). -/
  n : Bool
  /-- `SP`, the stack cursor (R29). -/
  sp : Word
  /-- `RUN`, the run state (R30). -/
  run : RunState
  /-- `STOP`, the stop record, meaningful when `RUN = STOPPED` (R31). -/
  stop : StopRecord
  /-- `M`, the memory array (R32). -/
  mem : Memory
  /-- `OUT`, the events sent to the sink, oldest first (R33). -/
  out : List Event
  /-- The configuration the machine is built with (R5); no step changes it (log entry 1). -/
  cfg : Config
  /-- How many free draws of option I2 the run has made (log entry 2). -/
  draws : Nat
  deriving DecidableEq, Repr

/-- Why the machine has no step. -/
inductive Fault where
  /-- Raised by step alone, when `RUN = STOPPED`: R88 "Once `RUN = STOPPED`, the machine has no step".
  Safe: the hardware does not go on either. -/
  | machineStopped
  deriving DecidableEq, Repr

/-- Why the model gives an instruction no meaning. -/
inductive Refusal where
  /-- An instruction whose meaning is not written yet; only exec's arms may answer it. Safe. -/
  | notModelled (mnemonic : String)
  /-- A word access at the odd address `a` when the model option `MISALIGNED_POLICY = FAULT` is selected (I1);
  raised by the fetch and by every word access. Never raised under the hardware value `BYTE_PAIR`. Safe. -/
  | misalignedAccess (a : Nat)
  deriving DecidableEq, Repr

/-- The stop record before any step has written it. The spec leaves it unspecified and unread (R36, I11); these
values are the model's (log entry 5). -/
def StopRecord.unwritten : StopRecord where
  status := .normal
  cause := .haltInstr
  stopPc := 0x0000#16
  stopIr := none
  faultAddr := none

/-- The state when a run begins (R36, R87 step 1, R191 step 4), with the memory the loader left and its entry
address. IR and STOP are unspecified there; their values are the model's (log entry 5). -/
def State.start (cfg : Config) (mem : Memory) (entry : Word) : State where
  acc := 0x0000#16
  pc := entry
  ir := 0x0000#16
  z := false
  n := false
  sp := cfg.stackBase
  run := .running
  stop := StopRecord.unwritten
  mem := mem
  out := []
  cfg := cfg
  draws := 0

/-- The machine right after reset (R36, R191): the reference configuration, zeroed memory and nothing loaded.
The entry address is the loader's; with no loader it is 0x0000 (log entry 6). -/
def State.reset : State := State.start Config.reference [] 0x0000#16

end Sys2Proof.Machine
end

