-- ==== Sys2Proof/Machine/Ops.lean ====
section
/-! DEFINITION. The shared operations: memory, registers, the call-stack controller, output, and stopping.

A fatal condition is the machine's exception (60_exceptions.md): `State.raise` is its one entry (R176). No return
from it exists (R179), so none stands beside it. -/

namespace Sys2Proof.Machine

/-! ### Memory -/

/-- What an address no store has written reads as (R42: "zero-initialized at load time"). -/
def Memory.unlisted : Byte := 0x00#8

/-- `M[a]` without the bound (R43). -/
def Memory.read : Memory → Nat → Byte
  | [], _ => Memory.unlisted
  | (k, b) :: rest, a => if a = k then b else Memory.read rest a

/-- A cell in front of a memory, left out when it holds what an unlisted address reads as. -/
def Memory.cell (a : Nat) (b : Byte) (rest : Memory) : Memory :=
  if b = Memory.unlisted then rest else (a, b) :: rest

/-- `M[a] <- b`, keeping the canonical form. -/
def Memory.write : Memory → Nat → Byte → Memory
  | [], a, b => Memory.cell a b []
  | (k, c) :: rest, a, b =>
    if a < k then Memory.cell a b ((k, c) :: rest)
    else if a = k then Memory.cell a b rest
    else (k, c) :: Memory.write rest a b

/-- The canonical form: addresses strictly rising, no entry equal to what an unlisted address reads as. -/
abbrev Memory.wf (m : Memory) : Prop :=
  m.Pairwise (fun x y => x.1 < y.1) ∧ ∀ x ∈ m, x.2 ≠ Memory.unlisted

/-- Every listed address exists: it is below `MEM_SIZE` (R40). -/
abbrev Memory.within (m : Memory) (size : Nat) : Prop := ∀ x ∈ m, x.1 < size

/-- The word `{M[a], M[a+1]}` without the bound (R44). -/
def Memory.readWord (m : Memory) (a : Nat) : Word := wordOfBytes (m.read a) (m.read (a + 1))

/-- `M[a] <- v[15:8]` and `M[a+1] <- v[7:0]` without the bound (R45). -/
def Memory.writeWord (m : Memory) (a : Nat) (v : Word) : Memory :=
  (m.write a (hiByte v)).write (a + 1) (loByte v)

/-- The byte scan of PRS (R153) from address `a`, `left` bytes before the end of memory: the bytes up to the first
zero byte, or the first address out of bounds. -/
def Memory.scan (m : Memory) : (left a : Nat) → Except Nat (List Byte)
  | 0, a => .error a
  | left + 1, a =>
    if m.read a = 0x00#8 then .ok []
    else match Memory.scan m left (a + 1) with
      | .ok bs => .ok (m.read a :: bs)
      | .error e => .error e

/-! ### Checked accesses -/

/-- What keeps a word access at `a` from happening: option I1 at an odd address, else the bound of R44 and R45, the
sum taken without wrap. -/
def State.wordTrap (s : State) (a : Nat) : Option Trap :=
  if s.cfg.misaligned = .fault ∧ a % 2 = 1 then some (.misaligned a)
  else if s.cfg.memSize ≤ a + 1 then some (.fatal .memoryBounds (some a))
  else none

/-- `MemRead(a, 2)` (R44). -/
def State.readWord (s : State) (a : Nat) : Except Trap Word :=
  match s.wordTrap a with
  | some t => .error t
  | none => .ok (s.mem.readWord a)

/-- `MemWrite(a, 2, v)` (R45): when the check fails, neither byte is written. -/
def State.writeWord (s : State) (a : Nat) (v : Word) : Except Trap State :=
  match s.wordTrap a with
  | some t => .error t
  | none => .ok { s with mem := s.mem.writeWord a v }

/-- The bytes PRS emits: byte reads `MemRead(a, 1)` from `a` (R43, R153). -/
def State.readString (s : State) (a : Nat) : Except Trap (List Byte) :=
  match s.mem.scan (s.cfg.memSize - a) a with
  | .ok bs => .ok bs
  | .error e => .error (.fatal .memoryBounds (some e))

/-! ### Registers and output -/

/-- `ACC <- v` (R22). -/
def State.setAcc (s : State) (v : Word) : State := { s with acc := v }

/-- `(Z, N) <- flags(w)` (R94). -/
def State.setFlags (s : State) (w : Word) : State := { s with z := flagZ w, n := flagN w }

/-- `PC <- target` (R23). -/
def State.setPc (s : State) (target : Word) : State := { s with pc := target }

/-- `SP <- v` (R29). -/
def State.setSp (s : State) (v : Word) : State := { s with sp := v }

/-- `emit(e)`: the event is appended to OUT (R33, R150). -/
def State.emit (s : State) (e : Event) : State := { s with out := s.out ++ [e] }

/-- The fetched word goes to IR and PC advances by 2 modulo 2^16, before dispatch (R81, R82). -/
def State.latch (s : State) (w : Word) : State := { s with ir := w, pc := s.pc + 2#16 }

/-! ### ALU results under OVERFLOW_POLICY -/

/-- Whether the exact result `x` is drawn: option I2 is selected and the magnitude is 2^15 or more. -/
def State.drawn (s : State) (x : Int) : Bool :=
  decide (s.cfg.overflow = .draw) && decide (2 ^ 15 ≤ x.natAbs)

/-- The word an exact result `x` is written as: `smenc(x)` (R96), or the free draw of option I2. -/
def State.resultWord (s : State) (x : Int) : Word :=
  if s.drawn x then Config.freeWord s.draws else smenc x

/-- Counts the draw that the exact result `x` makes, if it makes one (I2). -/
def State.countDraw (s : State) (x : Int) : State :=
  if s.drawn x then { s with draws := s.draws + 1 } else s

/-- `ACC <- smenc(x)`, flags left alone (R115), under OVERFLOW_POLICY. -/
def State.putResult (s : State) (x : Int) : State :=
  (s.countDraw x).setAcc (s.resultWord x)

/-- `ACC <- r` and `(Z, N) <- flags(r)` for `r = smenc(x)` (R112 to R114), under OVERFLOW_POLICY. -/
def State.putResultFlags (s : State) (x : Int) : State :=
  (s.putResult x).setFlags (s.resultWord x)

/-! ### The call-stack controller -/

/-- `push(v)` (R133): the overflow test, then the slot, then the cursor. -/
def State.push (s : State) (v : Word) : Except Trap State :=
  if s.cfg.stackTop.toNat < s.sp.toNat + 2 then .error (.fatal .stackOverflow (some s.sp.toNat))
  else match s.writeWord s.sp.toNat v with
    | .ok t => .ok (t.setSp (s.sp + 2#16))
    | .error e => .error e

/-- `pop()` (R134): the underflow test, then the cursor, then the slot, which is not cleared. -/
def State.pop (s : State) : Except Trap (Word × State) :=
  if s.sp = s.cfg.stackBase then .error (.fatal .stackUnderflow (some s.sp.toNat))
  else match s.readWord (s.sp - 2#16).toNat with
    | .ok v => .ok (v, s.setSp (s.sp - 2#16))
    | .error e => .error e

/-! ### Stopping -/

/-- The status codes of R170. -/
def FatalCondition.code : FatalCondition → Nat
  | .memoryBounds => 1
  | .stackOverflow => 2
  | .stackUnderflow => 3
  | .illegalOpcode => 4

/-- The number `run` returns (R87, R170): 0 for a normal stop. -/
def ExitStatus.code : ExitStatus → Nat
  | .normal => 0
  | .fatal k => k.code

/-- `fpc` during execute (R80): PC holds `fpc + 2` modulo 2^16 until the instruction writes it (R82), and every check
stands before the first write (R177), so it is `PC - 2` modulo 2^16 (log entry 7). -/
def State.fpc (s : State) : Word := s.pc - 2#16

/-- `raise K(fault_addr)` (R176): taking the machine's exception. It writes RUN and STOP and nothing else. -/
def State.raise (s : State) (k : FatalCondition) (fpc : Word) (ir : Option Word) (faultAddr : Option Nat) : State :=
  { s with
    run := .stopped
    stop := { status := .fatal k, cause := .fatal, stopPc := fpc, stopIr := ir, faultAddr := faultAddr } }

/-- `stop(cause)` (R84): a normal stop. It writes RUN and STOP and nothing else. -/
def State.halt (s : State) (cause : StopCause) : State :=
  { s with
    run := .stopped
    stop := { status := .normal, cause := cause, stopPc := s.fpc, stopIr := some s.ir, faultAddr := none } }

/-- How a step that meets a trap ends: a fatal condition is taken (R176), and the access option I1 refuses is
refused by name. -/
def State.endWith (s : State) (fpc : Word) (ir : Option Word) : Trap → Host.Outcome State Fault Refusal
  | .fatal k faultAddr => .next (s.raise k fpc ir faultAddr)
  | .misaligned a => .refused (.misalignedAccess a)

/-- A trap in the execute stage: the fetch has succeeded, so `stop_ir` is IR (R176). -/
def State.trap (s : State) (t : Trap) : Host.Outcome State Fault Refusal := s.endWith s.fpc (some s.ir) t

/-- A trap in the fetch stage: PC is not advanced yet and `stop_ir` is NONE (R81, R176). -/
def State.fetchTrap (s : State) (t : Trap) : Host.Outcome State Fault Refusal := s.endWith s.pc none t

/-! ### Fetch -/

/-- `MemRead(PC, 2)` (R81). -/
def State.fetch (s : State) : Except Trap Word := s.readWord s.pc.toNat

end Sys2Proof.Machine
end

