-- ==== Sys2Proof/Machine/Operands.lean ====
section
/-! DEFINITION. The operand forms (30_encoding.md R62 to R65).

An address operand is absolute and direct (R63). The literal of PRC is the instruction's own byte (R64) and the
sub-code of opcode 0x8 is read by the decoder (R65), so neither needs a form here. -/

namespace Sys2Proof.Machine

/-- `EA = zext_16(IR[11:0])` (R63). -/
def effectiveAddress (opd : Operand) : Word := opd.setWidth 16

/-- The word an address operand names: `MemRead(EA, 2)` (R63, R44). -/
def State.operandWord (s : State) (opd : Operand) : Except Trap Word :=
  s.readWord (effectiveAddress opd).toNat

/-- ADD, SUB and MUL in one (R112 to R114): read the operand, combine it with ACC, write ACC and the flags. -/
def State.combine (s : State) (opd : Operand) (f : Word → Word → Int) : Host.Outcome State Fault Refusal :=
  match s.operandWord opd with
  | .ok b => .next (s.putResultFlags (f s.acc b))
  | .error t => s.trap t

/-- A branch on a flag (R131, R132): the target when the flag is set, else PC stays advanced. -/
def State.branchIf (s : State) (flag : Bool) (opd : Operand) : State :=
  if flag then s.setPc (effectiveAddress opd) else s

end Sys2Proof.Machine
end

