-- ==== Sys2Proof/Machine/Control.lean ====
section
/-! DEFINITION. Control transfer, the call stack, halt and illegal words (43_control.md, 60_exceptions.md R174). -/

namespace Sys2Proof.Machine

/-- JMP (R130). -/
def execJmp (target : Operand) (s : State) : Host.Outcome State Fault Refusal :=
  .next (s.setPc (effectiveAddress target))

/-- BRZ (R131). -/
def execBrz (target : Operand) (s : State) : Host.Outcome State Fault Refusal := .next (s.branchIf s.z target)

/-- BRN (R132). -/
def execBrn (target : Operand) (s : State) : Host.Outcome State Fault Refusal := .next (s.branchIf s.n target)

/-- CAL (R135): the advanced PC is pushed, then PC is overwritten. -/
def execCal (target : Operand) (s : State) : Host.Outcome State Fault Refusal :=
  match s.push s.pc with
  | .ok t => .next (t.setPc (effectiveAddress target))
  | .error t => s.trap t

/-- RET (R136): the popped word is the new PC, all 16 bits. -/
def execRet (s : State) : Host.Outcome State Fault Refusal :=
  match s.pop with
  | .ok (v, t) => .next (t.setPc v)
  | .error t => s.trap t

/-- HALT (R138): the sub-code changes nothing. -/
def execHalt (_subCode : Operand) (s : State) : Host.Outcome State Fault Refusal := .next (s.halt .haltInstr)

/-- END (R139): the operand is ignored (R67). -/
def execEnd (_ignored : Operand) (s : State) : Host.Outcome State Fault Refusal := .next (s.halt .endSentinel)

/-- A word of opcode 0xE (R174): ILLEGAL_OPCODE, whatever its operand. -/
def execIllegalE (_ignored : Operand) (s : State) : Host.Outcome State Fault Refusal :=
  s.trap (.fatal .illegalOpcode none)

/-- A word of opcode 0xF (R174): ILLEGAL_OPCODE, whatever its operand. -/
def execIllegalF (_ignored : Operand) (s : State) : Host.Outcome State Fault Refusal :=
  s.trap (.fatal .illegalOpcode none)

end Sys2Proof.Machine
end

