-- ==== Sys2Proof/Machine/LoadStoreArith.lean ====
section
/-! DEFINITION. Load, store and arithmetic: LDA, STA, ADD, SUB, MUL, IAC (42_load_store_arith.md). -/

namespace Sys2Proof.Machine

/-- LDA (R110): the word is copied bit for bit and both flags come from it. -/
def execLda (addr : Operand) (s : State) : Host.Outcome State Fault Refusal :=
  match s.operandWord addr with
  | .ok w => .next ((s.setAcc w).setFlags w)
  | .error t => s.trap t

/-- STA (R111): ACC is written bit for bit and the flags stay. -/
def execSta (addr : Operand) (s : State) : Host.Outcome State Fault Refusal :=
  match s.writeWord (effectiveAddress addr).toNat s.acc with
  | .ok t => .next t
  | .error t => s.trap t

/-- ADD (R112). -/
def execAdd (addr : Operand) (s : State) : Host.Outcome State Fault Refusal := s.combine addr addExact

/-- SUB (R113): ACC minus memory. -/
def execSub (addr : Operand) (s : State) : Host.Outcome State Fault Refusal := s.combine addr subExact

/-- MUL (R114). -/
def execMul (addr : Operand) (s : State) : Host.Outcome State Fault Refusal := s.combine addr mulExact

/-- IAC (R115): no flag is written. -/
def execIac (s : State) : Host.Outcome State Fault Refusal := .next (s.putResult (incExact s.acc))

end Sys2Proof.Machine
end

