-- ==== Sys2Proof/Machine/Output.lean ====
section
/-! DEFINITION. Output: PRT, PRC, PRS (44_output.md). Each sends exactly one event, or none if it raises (R150). -/

namespace Sys2Proof.Machine

/-- PRT (R151): the number a memory word stands for. -/
def execPrt (addr : Operand) (s : State) : Host.Outcome State Fault Refusal :=
  match s.operandWord addr with
  | .ok w => .next (s.emit (.num (smdec w)))
  | .error t => s.trap t

/-- PRC (R152): the literal byte; `IR[11:8]` is ignored (R64). -/
def execPrc (_ignored : BitVec 4) (code : Byte) (s : State) : Host.Outcome State Fault Refusal :=
  .next (s.emit (.char code))

/-- PRS (R153): the bytes up to the first zero byte, sent as one event once the scan is complete. -/
def execPrs (addr : Operand) (s : State) : Host.Outcome State Fault Refusal :=
  match s.readString (effectiveAddress addr).toNat with
  | .ok bs => .next (s.emit (.str bs))
  | .error t => s.trap t

end Sys2Proof.Machine
end

