-- ==== Sys2Proof/Machine/Dispatch.lean ====
section
/-! DEFINITION. Dispatch (40_engine_cycle.md R85): one arm per constructor of Instr. -/

namespace Sys2Proof.Machine

/-- The execute stage (R85). IR and the advanced PC are in the state (R82). -/
def exec (i : Instr) (s : State) : Host.Outcome State Fault Refusal :=
  match i with
  | .endSentinel x => Sys2Proof.Machine.execEnd x s
  | .lda a => Sys2Proof.Machine.execLda a s
  | .sta a => Sys2Proof.Machine.execSta a s
  | .add a => Sys2Proof.Machine.execAdd a s
  | .sub a => Sys2Proof.Machine.execSub a s
  | .jmp a => Sys2Proof.Machine.execJmp a s
  | .cal a => Sys2Proof.Machine.execCal a s
  | .mul a => Sys2Proof.Machine.execMul a s
  | .iac => Sys2Proof.Machine.execIac s
  | .ret => Sys2Proof.Machine.execRet s
  | .halt x => Sys2Proof.Machine.execHalt x s
  | .brz a => Sys2Proof.Machine.execBrz a s
  | .brn a => Sys2Proof.Machine.execBrn a s
  | .prt a => Sys2Proof.Machine.execPrt a s
  | .prc h c => Sys2Proof.Machine.execPrc h c s
  | .prs a => Sys2Proof.Machine.execPrs a s
  | .illegalE x => Sys2Proof.Machine.execIllegalE x s
  | .illegalF x => Sys2Proof.Machine.execIllegalF x s

end Sys2Proof.Machine
end

