-- ==== Sys2Proof/Machine/Step.lean ====
section
/-! DEFINITION. One step (40_engine_cycle.md R80): fetch, advance, decode, execute. -/

namespace Sys2Proof.Machine

/-- One step (R80). A stopped machine has none (R88). -/
def step (s : State) : Host.Outcome State Fault Refusal :=
  match s.run with
  | .stopped => .fault .machineStopped
  | .running =>
    match s.fetch with
    | .error t => s.fetchTrap t
    | .ok w => exec (decodeWord w) (s.latch w)

/-- `s` with an instruction word of spec/opcode_table.json stored, big-endian, where the next step fetches, and the
machine running. At a PC whose word lies outside memory there is nowhere to store it. -/
def State.withFetchWord (s : State) (nbits w : Nat) : State :=
  if s.pc.toNat + 1 < s.cfg.memSize then
    { s with run := .running, mem := s.mem.writeWord s.pc.toNat (BitVec.ofNat 16 (tableWord nbits w)) }
  else s

end Sys2Proof.Machine
end

