-- ==== Sys2Proof/Machine/Boot.lean ====
section
/-! DEFINITION. The reset sequence of a run (70_reset_and_hazards.md R190, R191).

The loader and the input provider are outside the block; what they leave in memory is what these say. -/

namespace Sys2Proof.Machine

/-- A region of the program image: "a dense sequence of pre-encoded 16-bit words at a given base address" (R190). -/
structure Region where
  /-- The base address. -/
  base : Nat
  /-- The words, the first at the base. -/
  words : List Word
  deriving DecidableEq, Repr

/-- What the loader and the input provider supply (R190). -/
structure Image where
  /-- The DATA region. -/
  data : Region
  /-- The CODE region. -/
  code : Region
  /-- The cells the input provider seeds, each with the host's integer. -/
  seeds : List (Nat × Int)
  /-- The entry address the loader returns. -/
  entry : Word
  deriving DecidableEq, Repr

/-- Words stored big-endian from address `a` up (R190). -/
def Memory.loadWords (m : Memory) : (a : Nat) → List Word → Memory
  | _, [] => m
  | a, w :: ws => Memory.loadWords (m.writeWord a w) (a + 2) ws

/-- Seeded cells, each holding `smenc(x)` (R190); a later seed of one cell wins. -/
def Memory.seed (m : Memory) : List (Nat × Int) → Memory
  | [] => m
  | (a, x) :: rest => Memory.seed (m.writeWord a (smenc x)) rest

/-- The memory after steps 1 to 3 of R191: zeroed, then DATA and CODE, then the seeds. -/
def Image.memory (img : Image) : Memory :=
  Memory.seed
    (Memory.loadWords (Memory.loadWords [] img.data.base img.data.words) img.code.base img.code.words)
    img.seeds

/-- The region lies in memory. -/
abbrev Region.Fits (r : Region) (size : Nat) : Prop := r.base + 2 * r.words.length ≤ size

/-- The two regions share no byte (R50: "two disjoint regions"). -/
abbrev Region.Disjoint (r q : Region) : Prop :=
  r.base + 2 * r.words.length ≤ q.base ∨ q.base + 2 * q.words.length ≤ r.base

/-- The two word cells share no byte. -/
abbrev CellsApart (a b : Nat) : Prop := a + 1 < b ∨ b + 1 < a

/-- The machine at the start of a run of an image (R191 steps 1 to 4). -/
def boot (cfg : Config) (img : Image) : State := State.start cfg img.memory img.entry

end Sys2Proof.Machine
end

