-- ==== Sys2Proof/Machine/Run.lean ====
section
/-! DEFINITION. The run entry point (40_engine_cycle.md R86, R87) under fuel (R198). -/

namespace Sys2Proof.Machine

/-- At most `fuel` steps, none once the machine is stopped (R86 to R88). Running out of fuel answers the state reached,
whose RUN is still RUNNING: it is no stop of the machine (R198). -/
def runFor : Nat → State → Host.Outcome State Fault Refusal
  | 0, s => .next s
  | fuel + 1, s =>
    match s.run with
    | .stopped => .next s
    | .running =>
      match step s with
      | .next t => runFor fuel t
      | .fault f => .fault f
      | .refused r => .refused r

/-- What `run` returns to its caller (R87): `STOP.status` of a stopped machine, nothing of a running one. -/
def State.exitStatus (s : State) : Option ExitStatus :=
  match s.run with
  | .running => none
  | .stopped => some s.stop.status

end Sys2Proof.Machine
end

