-- ==== Sys2Proof/Safety.lean ====
section
/-! DEFINITION. The terms the claims use: which accesses are plain, which events and stop records are legal, and the
invariant every step keeps. -/

namespace Sys2Proof

/-- The operand of an instruction that accesses a memory word at its effective address (R46). -/
def Instr.wordOperand : Instr → Option Operand
  | .lda a => some a
  | .sta a => some a
  | .add a => some a
  | .sub a => some a
  | .mul a => some a
  | .prt a => some a
  | .endSentinel _ => none
  | .jmp _ => none
  | .cal _ => none
  | .iac => none
  | .ret => none
  | .halt _ => none
  | .brz _ => none
  | .brn _ => none
  | .prc _ _ => none
  | .prs _ => none
  | .illegalE _ => none
  | .illegalF _ => none

end Sys2Proof

namespace Sys2Proof.Machine

/-- A word access at `a` that no check stops: in bounds (R44), and at an even address or under `BYTE_PAIR` (R48, I1). -/
abbrev State.WordOk (s : State) (a : Nat) : Prop :=
  (s.cfg.misaligned = .bytePair ∨ a % 2 = 0) ∧ a + 1 < s.cfg.memSize

/-- A word access at `a` that the bound stops: out of bounds (R44), and at an even address or under `BYTE_PAIR`. -/
abbrev State.WordOut (s : State) (a : Nat) : Prop :=
  (s.cfg.misaligned = .bytePair ∨ a % 2 = 0) ∧ s.cfg.memSize ≤ a + 1

/-- The events R150 allows: numbers in -32767..32767, any byte, and strings of nonzero bytes. -/
def Event.Legal : Event → Prop
  | .num i => -32767 ≤ i ∧ i ≤ 32767
  | .char _ => True
  | .str bs => ∀ b ∈ bs, b ≠ 0x00#8

/-- The stop record of a stopped machine is one that R84 or R176 writes, with the cause R170 names for its
instruction: what is in SP, PC and the configuration explains it. -/
inductive State.StopExplained (s : State) : Prop where
  /-- HALT (R138). -/
  | halted (w : Word) (x : Operand) (instr : decodeWord w = .halt x)
      (record : s.stop = ⟨.normal, .haltInstr, s.fpc, some w, none⟩)
  /-- END (R139). -/
  | ended (w : Word) (x : Operand) (instr : decodeWord w = .endSentinel x)
      (record : s.stop = ⟨.normal, .endSentinel, s.fpc, some w, none⟩)
  /-- The fetch met the bound (R81). -/
  | fetchBound (bound : s.cfg.memSize ≤ s.pc.toNat + 1)
      (record : s.stop = ⟨.fatal .memoryBounds, .fatal, s.pc, none, some s.pc.toNat⟩)
  /-- A word operand met the bound (R171). -/
  | wordBound (w : Word) (a : Operand) (instr : (decodeWord w).wordOperand = some a)
      (bound : s.cfg.memSize ≤ a.toNat + 1)
      (record : s.stop = ⟨.fatal .memoryBounds, .fatal, s.fpc, some w, some a.toNat⟩)
  /-- A PRS scan met the bound (R153). -/
  | scanBound (w : Word) (a : Operand) (instr : decodeWord w = .prs a)
      (record : s.stop = ⟨.fatal .memoryBounds, .fatal, s.fpc, some w, some (max s.cfg.memSize a.toNat)⟩)
  /-- CAL on a full stack (R172). -/
  | overflow (w : Word) (a : Operand) (instr : decodeWord w = .cal a)
      (full : s.cfg.stackTop.toNat < s.sp.toNat + 2)
      (record : s.stop = ⟨.fatal .stackOverflow, .fatal, s.fpc, some w, some s.sp.toNat⟩)
  /-- RET on an empty stack (R173). -/
  | underflow (w : Word) (instr : decodeWord w = .ret) (empty : s.sp = s.cfg.stackBase)
      (record : s.stop = ⟨.fatal .stackUnderflow, .fatal, s.fpc, some w, some s.sp.toNat⟩)
  /-- A word of opcode 0xE or 0xF (R174). -/
  | illegal (w : Word) (x : Operand) (instr : decodeWord w = .illegalE x ∨ decodeWord w = .illegalF x)
      (record : s.stop = ⟨.fatal .illegalOpcode, .fatal, s.fpc, some w, none⟩)

/-- What holds of every state a run reaches. -/
structure State.Inv (s : State) : Prop where
  /-- The parameters meet R5's constraints. -/
  cfg_valid : s.cfg.Valid
  /-- Memory is in its canonical form. -/
  mem_wf : s.mem.wf
  /-- Every listed address exists (R40). -/
  mem_within : s.mem.within s.cfg.memSize
  /-- R29: the cursor is even. -/
  sp_even : s.sp.toNat % 2 = 0
  /-- R29: the cursor is not below the region. -/
  sp_low : s.cfg.stackBase.toNat ≤ s.sp.toNat
  /-- R29: the cursor is not above the region. -/
  sp_high : s.sp.toNat ≤ s.cfg.stackTop.toNat
  /-- R27: `Z = 1` and `N = 1` never hold together. -/
  flags_exclusive : ¬(s.z = true ∧ s.n = true)
  /-- R150: only legal events are sent. -/
  out_legal : ∀ e ∈ s.out, e.Legal
  /-- R31: the record of a stopped machine is explained. -/
  stop_explained : s.run = .stopped → s.StopExplained

/-- A run that ended, and ended normally (R84). -/
def State.StoppedNormally (s : State) : Prop := s.run = .stopped ∧ s.stop.status = .normal

/-- A run that ended on a fatal condition (R176). -/
def State.StoppedFatally (s : State) : Prop := s.run = .stopped ∧ s.stop.cause = .fatal

end Sys2Proof.Machine
end

