-- ==== Sys2Proof/Certificates/Slice0/Obligations.lean ====
section
/-! DEFINITION. The statements for the provers.

Where a statement rests on a choice the spec marks as its own (a decision D<n>) or on a row of the assumption log, its
docstring says so. -/

namespace Sys2Proof.Statements

open Sys2Proof.Machine

/-- The rows of spec/opcode_table.json: mnemonic, match, mask. -/
def opcodeRows : List (String × Word × Word) :=
  [("END", 0x0000#16, 0xF000#16), ("LDA", 0x1000#16, 0xF000#16), ("STA", 0x2000#16, 0xF000#16),
   ("ADD", 0x3000#16, 0xF000#16), ("SUB", 0x4000#16, 0xF000#16), ("JMP", 0x5000#16, 0xF000#16),
   ("CAL", 0x6000#16, 0xF000#16), ("MUL", 0x7000#16, 0xF000#16), ("IAC", 0x8002#16, 0xFFFF#16),
   ("RET", 0x8005#16, 0xFFFF#16)] ++
  [("HALT", 0x8000#16, 0xF000#16), ("BRZ", 0x9000#16, 0xF000#16), ("BRN", 0xA000#16, 0xF000#16),
   ("PRT", 0xB000#16, 0xF000#16), ("PRC", 0xC000#16, 0xF000#16), ("PRS", 0xD000#16, 0xF000#16),
   ("ILLEGAL_E", 0xE000#16, 0xF000#16), ("ILLEGAL_F", 0xF000#16, 0xF000#16)]

/-- The state that ACC and both flags are written in, and nothing else (R110, R112 to R114). -/
def withAccAndFlags (s : State) (w : Word) : State := { s with acc := w, z := flagZ w, n := flagN w }

/-- The state in which the executing instruction's step ended on MEMORY_BOUNDS at `a` (R176). -/
def stoppedAtBound (s : State) (a : Nat) : State := s.raise .memoryBounds s.fpc (some s.ir) (some a)

/-- Return addresses pushed one after another. -/
def pushAll : List Word → State → Except Trap State
  | [], s => .ok s
  | v :: vs, s =>
    match s.push v with
    | .ok t => pushAll vs t
    | .error e => .error e

/-- That many return addresses popped, the first popped first. -/
def popAll : Nat → State → Except Trap (List Word × State)
  | 0, s => .ok ([], s)
  | k + 1, s =>
    match s.pop with
    | .error e => .error e
    | .ok (v, t) =>
      match popAll k t with
      | .error e => .error e
      | .ok (vs, u) => .ok (v :: vs, u)

end Sys2Proof.Statements

open Sys2Proof Sys2Proof.Machine Sys2Proof.Statements

/-! ### Encoding -/

/-- Decode and encode agree, on bytes: every well-formed instruction, with every operand value, comes back from its
two bytes, and the bytes after it are left (R60, R61, R71). -/
def Obligations.DecodeEncodeRoundTrip : Prop :=
  ∀ (i : Instr) (rest : List Byte), i.WellFormed → decode (encodeBytes i ++ rest) = .ok (i, rest)

/-- Every one of the 65536 words is the encoding of exactly one well-formed instruction, the one decode gives (R71).
Keeping the ignored bits in the instruction is the model's choice (log entry 3). -/
def Obligations.EveryWordIsOneInstruction : Prop :=
  ∀ w : Word, (decodeWord w).WellFormed ∧ encode (decodeWord w) = w ∧
    ∀ i : Instr, i.WellFormed → encode i = w → i = decodeWord w

/-- Words of the spec's decode vectors (95_test_vectors.md 2.2), each with its instruction. -/
def Obligations.DecodeSampleWords : Prop :=
  decodeWord 0x0000#16 = .endSentinel 0x000#12 ∧ decodeWord 0x0ABC#16 = .endSentinel 0xABC#12 ∧
  decodeWord 0x1100#16 = .lda 0x100#12 ∧ decodeWord 0x2FFE#16 = .sta 0xFFE#12 ∧
  decodeWord 0x7102#16 = .mul 0x102#12 ∧ decodeWord 0x8000#16 = .halt 0x000#12 ∧
  decodeWord 0x8002#16 = .iac ∧ decodeWord 0x8005#16 = .ret ∧
  decodeWord 0x8102#16 = .halt 0x102#12 ∧ decodeWord 0x8F05#16 = .halt 0xF05#12 ∧
  decodeWord 0xA21C#16 = .brn 0x21C#12 ∧ decodeWord 0xC10A#16 = .prc 0x1#4 0x0A#8 ∧
  decodeWord 0xD120#16 = .prs 0x120#12 ∧ decodeWord 0xE000#16 = .illegalE 0x000#12 ∧
  decodeWord 0xFFFF#16 = .illegalF 0xFFF#12

/-- A word that matches a row of the opcode table decodes to that row's instruction; HALT's row has the lowest
priority within opcode 0x8 (R66, R71; the whole-operand compare is D11, 0xE and 0xF are D12). -/
def Obligations.OpcodeTableDecodes : Prop :=
  ∀ row ∈ opcodeRows, ∀ w : Word, w &&& row.2.2 = row.2.1 →
    (row.1 = "HALT" → w ≠ 0x8002#16 ∧ w ≠ 0x8005#16) → (decodeWord w).mnemonic = row.1

/-! ### Codec, ALU and flags -/

/-- R90: the integer a word stands for, its range, and the two zeros. -/
def Obligations.SignMagnitudeDecode : Prop :=
  (∀ w : Word, smdec w = (if w[15] then -((w &&& 0x7FFF#16).toNat : Int) else ((w &&& 0x7FFF#16).toNat : Int)) ∧
    -32767 ≤ smdec w ∧ smdec w ≤ 32767) ∧
  smdec 0x8000#16 = 0 ∧ smdec 0x0000#16 = 0

/-- R91: sign bit 0x8000 for a negative integer, and the absolute value masked to 15 bits; zero is 0x0000. -/
def Obligations.SignMagnitudeEncode : Prop :=
  (∀ x : Int, ((smenc x)[15] = true ↔ x < 0) ∧ (smenc x &&& 0x7FFF#16).toNat = x.natAbs &&& 0x7FFF) ∧
    smenc 0 = 0x0000#16

/-- R93: decode after encode on -32767..32767, and encode after decode on every word but 0x8000 (which the spec derives). -/
def Obligations.CodecRoundTrip : Prop :=
  (∀ x : Int, -32767 ≤ x → x ≤ 32767 → smdec (smenc x) = x) ∧
  (∀ w : Word, w ≠ 0x8000#16 → smenc (smdec w) = w) ∧ smenc (smdec 0x8000#16) = 0x0000#16

/-- R92: an out-of-range result keeps the sign of the integer and its magnitude modulo 32768. What the spec derives: 0x8000 comes
from exactly the negative integers whose magnitude is a multiple of 32768, never from one in range, and the wrapped results
0x0000 and 0x8000 both set Z and clear N. -/
def Obligations.OverflowWraps : Prop :=
  (∀ x : Int, 2 ^ 15 ≤ x.natAbs → (smenc x).msb = decide (x < 0) ∧ (magnitude (smenc x)).toNat = x.natAbs % 32768) ∧
  (∀ x : Int, smenc x = 0x8000#16 ↔ x < 0 ∧ x.natAbs % 32768 = 0) ∧
  (∀ x : Int, -32767 ≤ x → x ≤ 32767 → smenc x ≠ 0x8000#16) ∧
  (smenc 32768 = 0x0000#16 ∧ flagZ (smenc 32768) = true ∧ flagN (smenc 32768) = false) ∧
  (smenc (-32768) = 0x8000#16 ∧ flagZ (smenc (-32768)) = true ∧ flagN (smenc (-32768)) = false)

/-- R94: the flags of a word, bit by bit and by its integer; they come from the word that is written to ACC, after encoding
(here with the hardware's wrap, R92); the flags of 0x8000 are those of zero. -/
def Obligations.FlagsFromWord : Prop :=
  (∀ w : Word, (flagZ w = true ↔ w &&& 0x7FFF#16 = 0#16) ∧ (flagN w = true ↔ w[15] = true ∧ w &&& 0x7FFF#16 ≠ 0#16) ∧
    (flagZ w = true ↔ smdec w = 0) ∧ (flagN w = true ↔ smdec w < 0)) ∧
  (∀ (s : State) (x : Int), s.cfg.overflow = .wrap →
    (s.putResultFlags x).acc = smenc x ∧ (s.putResultFlags x).z = flagZ (smenc x) ∧
      (s.putResultFlags x).n = flagN (smenc x)) ∧
  flagZ 0x8000#16 = true ∧ flagN 0x8000#16 = false

/-- R95: the two flags of one word never hold together. -/
def Obligations.FlagsMutuallyExclusive : Prop :=
  ∀ w : Word, ¬(flagZ w = true ∧ flagN w = true)

/-- R97: the exact results before encoding, all within a 32-bit signed integer (the spec derives it). -/
def Obligations.AluExactRanges : Prop :=
  ∀ a b : Word,
    (-65534 ≤ addExact a b ∧ addExact a b ≤ 65534) ∧ (-65534 ≤ subExact a b ∧ subExact a b ≤ 65534) ∧
    (-1073676289 ≤ mulExact a b ∧ mulExact a b ≤ 1073676289) ∧ (-32766 ≤ incExact a ∧ incExact a ≤ 32768)

/-- R98: 0x8000 acts as 0 in every operation, and a product with a zero operand is 0x0000 (the spec derives it). -/
def Obligations.NegativeZeroActsAsZero : Prop :=
  (∀ b : Word, aluAdd 0x8000#16 b = aluAdd 0x0000#16 b ∧ aluAdd b 0x8000#16 = aluAdd b 0x0000#16 ∧
    aluSub 0x8000#16 b = aluSub 0x0000#16 b ∧ aluSub b 0x8000#16 = aluSub b 0x0000#16) ∧
  aluInc 0x8000#16 = 0x0001#16 ∧
  (∀ a b : Word, (smdec a = 0 ∨ smdec b = 0) → aluMul a b = 0x0000#16)

/-! ### Memory -/

/-- Word accesses (R44, R45, R47): big-endian, at any in-bounds address, even or odd (R48, D2). A word written is read
back, its high byte at the lower address, and every other byte stays. -/
def Obligations.WordAccessInBounds : Prop :=
  ∀ (s : State) (a : Nat) (v : Word), s.mem.wf → s.WordOk a →
    (∃ w, s.readWord a = .ok w ∧ w.toNat = (s.mem.read a).toNat * 256 + (s.mem.read (a + 1)).toNat) ∧
    (∃ t, s.writeWord a v = .ok t ∧ t = { s with mem := t.mem } ∧ t.readWord a = .ok v ∧
      (t.mem.read a).toNat = v.toNat / 256 ∧ (t.mem.read (a + 1)).toNat = v.toNat % 256 ∧
      ∀ c : Nat, c ≠ a → c ≠ a + 1 → t.mem.read c = s.mem.read c)

/-- A word access whose second byte lies outside memory raises MEMORY_BOUNDS with the address of the access (R44, R45;
that neither byte is written is D14, the fault address D9). -/
def Obligations.WordAccessOutOfBounds : Prop :=
  ∀ (s : State) (a : Nat) (v : Word), s.WordOut a →
    s.readWord a = .error (.fatal .memoryBounds (some a)) ∧ s.writeWord a v = .error (.fatal .memoryBounds (some a))

/-! ### Load, store and arithmetic -/

/-- R110, LDA: encoding, effect with everything it leaves unchanged, and the bound. -/
def Obligations.LoadAccumulator : Prop :=
  ∀ (a : Operand) (s : State),
    decodeWord (0x1#4 ++ a) = .lda a ∧
    (s.WordOk a.toNat → exec (.lda a) s = .next (withAccAndFlags s (s.mem.readWord a.toNat))) ∧
    (s.WordOut a.toNat → exec (.lda a) s = .next (stoppedAtBound s a.toNat))

/-- R111, STA: encoding, effect with everything it leaves unchanged, and the bound. -/
def Obligations.StoreAccumulator : Prop :=
  ∀ (a : Operand) (s : State), s.mem.wf →
    decodeWord (0x2#4 ++ a) = .sta a ∧
    (s.WordOk a.toNat → ∃ m : Memory, exec (.sta a) s = .next { s with mem := m } ∧ m.wf ∧
      m.read a.toNat = s.acc.extractLsb' 8 8 ∧ m.read (a.toNat + 1) = s.acc.extractLsb' 0 8 ∧
      ∀ c : Nat, c ≠ a.toNat → c ≠ a.toNat + 1 → m.read c = s.mem.read c) ∧
    (s.WordOut a.toNat → exec (.sta a) s = .next (stoppedAtBound s a.toNat))

/-- R112 and R114, ADD and MUL: encoding, effect with everything it leaves unchanged, and the bound. The overflow is the
hardware's wrap (R92). -/
def Obligations.AddAndMultiplyMemory : Prop :=
  ∀ (a : Operand) (s : State), s.cfg.overflow = .wrap →
    (decodeWord (0x3#4 ++ a) = .add a ∧ decodeWord (0x7#4 ++ a) = .mul a) ∧
    (s.WordOk a.toNat →
      exec (.add a) s = .next (withAccAndFlags s (smenc (smdec s.acc + smdec (s.mem.readWord a.toNat)))) ∧
      exec (.mul a) s = .next (withAccAndFlags s (smenc (smdec s.acc * smdec (s.mem.readWord a.toNat))))) ∧
    (s.WordOut a.toNat →
      exec (.add a) s = .next (stoppedAtBound s a.toNat) ∧ exec (.mul a) s = .next (stoppedAtBound s a.toNat))

/-- R113, SUB: as R112 with ACC minus memory; and what the spec derives from it: while the exact difference is in range,
N says that ACC is less than the memory word and Z that they are equal. -/
def Obligations.SubtractMemory : Prop :=
  ∀ (a : Operand) (s : State), s.cfg.overflow = .wrap →
    decodeWord (0x4#4 ++ a) = .sub a ∧
    (s.WordOk a.toNat →
      exec (.sub a) s = .next (withAccAndFlags s (smenc (smdec s.acc - smdec (s.mem.readWord a.toNat))))) ∧
    (s.WordOut a.toNat → exec (.sub a) s = .next (stoppedAtBound s a.toNat)) ∧
    (∀ t : State, s.WordOk a.toNat → exec (.sub a) s = .next t →
      (smdec s.acc - smdec (s.mem.readWord a.toNat)).natAbs ≤ 32767 →
      (t.n = true ↔ smdec s.acc < smdec (s.mem.readWord a.toNat)) ∧
      (t.z = true ↔ smdec s.acc = smdec (s.mem.readWord a.toNat)))

/-- R115, IAC: encoding and effect; the flags and everything else stay. The overflow is the hardware's wrap (R92). -/
def Obligations.IncrementAccumulator : Prop :=
  (∀ w : Word, decodeWord w = .iac ↔ w = 0x8002#16) ∧
  ∀ s : State, s.cfg.overflow = .wrap → exec .iac s = .next { s with acc := smenc (smdec s.acc + 1) }

/-! ### Control transfer, the call stack and stopping -/

/-- R130, JMP: PC becomes the target, unchecked and with nothing else changed; a target whose word is out of bounds stops
the next step at its fetch. -/
def Obligations.JumpSetsPc : Prop :=
  ∀ (a : Operand) (s : State),
    decodeWord (0x5#4 ++ a) = .jmp a ∧
    exec (.jmp a) s = .next { s with pc := a.setWidth 16 } ∧
    (s.run = .running → s.WordOut a.toNat →
      step { s with pc := a.setWidth 16 } =
        .next (State.raise { s with pc := a.setWidth 16 } .memoryBounds (a.setWidth 16) none (some a.toNat)))

/-- R131 and R132, BRZ and BRN: the target when the flag is set, else PC stays at the advanced address; no flag and
nothing else changes. -/
def Obligations.BranchesFollowFlags : Prop :=
  ∀ (a : Operand) (s : State),
    (decodeWord (0x9#4 ++ a) = .brz a ∧ decodeWord (0xA#4 ++ a) = .brn a) ∧
    exec (.brz a) s = .next { s with pc := if s.z = true then a.setWidth 16 else s.pc } ∧
    exec (.brn a) s = .next { s with pc := if s.n = true then a.setWidth 16 else s.pc }

/-- R135 with R133, CAL: the advanced PC goes to the slot at SP, high byte first (D4), SP advances by 2 and PC becomes
the target; on a full stack (D3) it stops with STACK_OVERFLOW and nothing written. -/
def Obligations.CallPushesReturnAddress : Prop :=
  ∀ (a : Operand) (s : State), s.cfg.Valid → s.mem.wf → (s.cfg.misaligned = .bytePair ∨ s.sp.toNat % 2 = 0) →
    decodeWord (0x6#4 ++ a) = .cal a ∧
    (s.sp.toNat + 2 ≤ s.cfg.stackTop.toNat → ∃ m : Memory,
      exec (.cal a) s = .next { s with mem := m, sp := s.sp + 2#16, pc := a.setWidth 16 } ∧ m.wf ∧
      m.read s.sp.toNat = s.pc.extractLsb' 8 8 ∧ m.read (s.sp.toNat + 1) = s.pc.extractLsb' 0 8 ∧
      ∀ c : Nat, c ≠ s.sp.toNat → c ≠ s.sp.toNat + 1 → m.read c = s.mem.read c) ∧
    (s.cfg.stackTop.toNat < s.sp.toNat + 2 →
      exec (.cal a) s = .next (s.raise .stackOverflow s.fpc (some s.ir) (some s.sp.toNat)))

/-- R136 and R173, RET: PC becomes the word in the slot below SP, all 16 bits, SP retreats by 2 and nothing else
changes, the slot included; on an empty stack it stops with STACK_UNDERFLOW and `fault_addr = SP`. -/
def Obligations.ReturnPopsAddress : Prop :=
  (∀ w : Word, decodeWord w = .ret ↔ w = 0x8005#16) ∧
  ∀ s : State, s.Inv →
    (s.sp ≠ s.cfg.stackBase →
      exec .ret s = .next { s with pc := s.mem.readWord (s.sp.toNat - 2), sp := s.sp - 2#16 }) ∧
    (s.sp = s.cfg.stackBase →
      exec .ret s = .next (s.raise .stackUnderflow s.fpc (some s.ir) (some s.sp.toNat)))

/-- CAL then RET (R135, R136): if a CAL completes and, later, SP and the slot it wrote are as the CAL left them, RET
resumes at exactly the instruction after the CAL, with the stack as deep as before it. -/
def Obligations.CallThenReturn : Prop :=
  ∀ (a : Operand) (s t u : State), s.Inv → exec (.cal a) s = .next t → t.run = s.run → s.run = .running →
    u.cfg = t.cfg → u.sp = t.sp → u.mem.read s.sp.toNat = t.mem.read s.sp.toNat →
    u.mem.read (s.sp.toNat + 1) = t.mem.read (s.sp.toNat + 1) →
    exec .ret u = .next { u with pc := s.pc, sp := s.sp }

/-- R84, R138 and R139, HALT (any sub-code but two) and END (any operand): a normal stop, `stop_pc` the instruction's own
address (R82) and `stop_ir` its word; nothing but RUN and STOP changes. That HALT has no other effect is D15; the record's
fields are D9. -/
def Obligations.NormalStops : Prop :=
  ∀ (x : Operand) (s : State),
    exec (.halt x) s = .next { s with
      run := .stopped, stop := ⟨.normal, .haltInstr, s.pc - 2#16, some s.ir, none⟩ } ∧
    exec (.endSentinel x) s = .next { s with
      run := .stopped, stop := ⟨.normal, .endSentinel, s.pc - 2#16, some s.ir, none⟩ }

/-- R174 (decision D12): a word of opcode 0xE or 0xF, whatever its operand, stops with ILLEGAL_OPCODE, status code 4 (D10),
and no other effect. -/
def Obligations.IllegalOpcodeStops : Prop :=
  ∀ (x : Operand) (s : State),
    decodeWord (0xE#4 ++ x) = .illegalE x ∧ decodeWord (0xF#4 ++ x) = .illegalF x ∧
    exec (.illegalE x) s = .next { s with
      run := .stopped, stop := ⟨.fatal .illegalOpcode, .fatal, s.pc - 2#16, some s.ir, none⟩ } ∧
    exec (.illegalF x) s = .next { s with
      run := .stopped, stop := ⟨.fatal .illegalOpcode, .fatal, s.pc - 2#16, some s.ir, none⟩ } ∧
    (ExitStatus.fatal .illegalOpcode).code = 4

/-- R176 and R170: taking a fatal condition writes RUN and the stop record and nothing else; its status code is 1 to 4 and
tells the four conditions apart from each other and from a normal stop (numbers: D10, fields: D9). -/
def Obligations.FatalStopRecord : Prop :=
  (∀ (s : State) (k : FatalCondition) (fpc : Word) (ir : Option Word) (fa : Option Nat),
    s.raise k fpc ir fa = { s with run := .stopped, stop := ⟨.fatal k, .fatal, fpc, ir, fa⟩ }) ∧
  (∀ x y : ExitStatus, x.code = y.code → x = y) ∧
  (∀ k : FatalCondition, 1 ≤ (ExitStatus.fatal k).code ∧ (ExitStatus.fatal k).code ≤ 4) ∧ ExitStatus.normal.code = 0

/-! ### Output -/

/-- R151, PRT: the memory word's integer is sent and nothing else changes; out of bounds, nothing is sent. -/
def Obligations.PrintNumber : Prop :=
  ∀ (a : Operand) (s : State),
    decodeWord (0xB#4 ++ a) = .prt a ∧
    (s.WordOk a.toNat → exec (.prt a) s = .next { s with out := s.out ++ [.num (smdec (s.mem.readWord a.toNat))] }) ∧
    (s.WordOut a.toNat → exec (.prt a) s = .next (stoppedAtBound s a.toNat))

/-- R152, PRC: the low byte of the operand is sent, whatever `IR[11:8]`, and nothing else changes. -/
def Obligations.PrintCharacter : Prop :=
  ∀ (w : Word) (s : State), w.extractLsb' 12 4 = 0xC#4 →
    exec (decodeWord w) s = .next { s with out := s.out ++ [.char (w.extractLsb' 0 8)] }

/-- R153, PRS: the bytes from EA up to the first zero byte are sent as one event, an empty string included (D16); with no
zero byte before the end of memory it stops with MEMORY_BOUNDS at the first address out of bounds and sends nothing (D16). That
this fault address is 0x10000, not a 16-bit address, when MEM_SIZE is 65536 is the model's choice (log entry 4). -/
def Obligations.PrintString : Prop :=
  ∀ (a : Operand) (s : State),
    decodeWord (0xD#4 ++ a) = .prs a ∧
    (∀ bs : List Byte, a.toNat + bs.length < s.cfg.memSize → s.mem.read (a.toNat + bs.length) = 0x00#8 →
      (∀ i : Nat, (h : i < bs.length) → s.mem.read (a.toNat + i) = bs[i] ∧ bs[i] ≠ 0x00#8) →
      exec (.prs a) s = .next { s with out := s.out ++ [.str bs] }) ∧
    ((∀ c : Nat, a.toNat ≤ c → c < s.cfg.memSize → s.mem.read c ≠ 0x00#8) →
      exec (.prs a) s = .next (stoppedAtBound s (max s.cfg.memSize a.toNat)))

/-! ### The step -/

/-- R80 to R83: when the machine runs and the word at PC is in bounds, a step executes the instruction that word decodes to,
with the word in IR and PC advanced by 2 modulo 2^16 (D8). -/
def Obligations.StepExecutesDecodedInstruction : Prop :=
  ∀ s : State, s.run = .running → s.WordOk s.pc.toNat →
    step s = exec (decodeWord (s.mem.readWord s.pc.toNat))
      { s with ir := s.mem.readWord s.pc.toNat, pc := s.pc + 2#16 }

/-- R81: a fetch whose second byte lies outside memory stops with MEMORY_BOUNDS, `fault_addr` and `stop_pc` the fetch
address and `stop_ir` NONE; PC is not advanced and nothing else changes (record fields: D9). -/
def Obligations.FetchFaultStops : Prop :=
  ∀ s : State, s.run = .running → s.WordOut s.pc.toNat →
    step s = .next { s with
      run := .stopped, stop := ⟨.fatal .memoryBounds, .fatal, s.pc, none, some s.pc.toNat⟩ }

/-- R88 (decision D22): a stopped machine has no step, and a run of any length leaves it as it is. -/
def Obligations.StoppedMachineHasNoStep : Prop :=
  ∀ s : State, s.run = .stopped → step s = .fault .machineStopped ∧ ∀ k : Nat, runFor k s = .next s

/-- R177 (decision D14): a step that stops on a fatal condition has changed nothing but RUN, STOP, IR and the PC advance, and
its record names the step's own address; R176: PC is not advanced exactly when the fetch failed. -/
def Obligations.PreciseStops : Prop :=
  ∀ s t : State, step s = .next t → t.StoppedFatally →
    t = { s with pc := t.pc, ir := t.ir, run := t.run, stop := t.stop } ∧ t.stop.stopPc = s.pc ∧
    ((t.stop.stopIr = none ∧ t.pc = s.pc ∧ t.ir = s.ir) ∨
     (t.stop.stopIr = some (s.mem.readWord s.pc.toNat) ∧ t.pc = s.pc + 2#16 ∧
      t.ir = s.mem.readWord s.pc.toNat))

/-! ### Frames and whole-machine rules -/

/-- R22 and R27: only LDA, ADD, SUB, MUL and IAC change ACC; only LDA, ADD, SUB and MUL change a flag, and those leave both
flags as the new ACC's. -/
def Obligations.AccAndFlagWriters : Prop :=
  ∀ (i : Instr) (s t : State), exec i s = .next t →
    (t.acc ≠ s.acc → i = .iac ∨ ∃ a, i = .lda a ∨ i = .add a ∨ i = .sub a ∨ i = .mul a) ∧
    (t.z ≠ s.z ∨ t.n ≠ s.n → ∃ a, i = .lda a ∨ i = .add a ∨ i = .sub a ∨ i = .mul a) ∧
    (∀ a, (i = .lda a ∨ i = .add a ∨ i = .sub a ∨ i = .mul a) → t.run = .running →
      t.z = flagZ t.acc ∧ t.n = flagN t.acc)

/-- R29: only CAL and RET change SP, CAL by adding 2 and RET by subtracting 2. -/
def Obligations.StackCursorWriters : Prop :=
  ∀ (i : Instr) (s t : State), exec i s = .next t → t.sp ≠ s.sp →
    (∃ a, i = .cal a ∧ t.sp = s.sp + 2#16) ∨ (i = .ret ∧ t.sp = s.sp - 2#16)

/-- R23 and R140: PC stays at the advanced address but for the target of JMP, CAL and a taken BRZ or BRN, and for the word RET
pops. -/
def Obligations.ProgramCounterWriters : Prop :=
  ∀ (i : Instr) (s t : State), exec i s = .next t → t.pc ≠ s.pc →
    (∃ a, (i = .jmp a ∨ i = .cal a ∨ (i = .brz a ∧ s.z = true) ∨ (i = .brn a ∧ s.n = true)) ∧ t.pc = a.setWidth 16) ∨
    (i = .ret ∧ t.pc = s.mem.readWord (s.sp - 2#16).toNat)

/-- R46: an instruction other than STA and CAL stores nothing: every byte of memory reads as before. -/
def Obligations.NonStoringFrame : Prop :=
  ∀ (i : Instr) (s t : State), (∀ a, i ≠ .sta a ∧ i ≠ .cal a) → exec i s = .next t →
    ∀ c : Nat, t.mem.read c = s.mem.read c

/-- R46: STA stores to the two bytes at its effective address and CAL to the two at SP; every other byte reads as before. -/
def Obligations.StoringFrame : Prop :=
  ∀ (a : Operand) (s t : State), s.mem.wf →
    (exec (.sta a) s = .next t → ∀ c : Nat, c ≠ (effectiveAddress a).toNat → c ≠ (effectiveAddress a).toNat + 1 →
      t.mem.read c = s.mem.read c) ∧
    (exec (.cal a) s = .next t → ∀ c : Nat, c ≠ s.sp.toNat → c ≠ s.sp.toNat + 1 → t.mem.read c = s.mem.read c)

/-- R33 and R150: OUT only grows, by at most one event a step, and only PRT, PRC and PRS send one, each of its own kind and
only when it does not stop. -/
def Obligations.OutputOnlyAppends : Prop :=
  ∀ (i : Instr) (s t : State), exec i s = .next t →
    t.out = s.out ∨
    (t.run = s.run ∧ t.stop = s.stop ∧
      ((∃ a x, i = .prt a ∧ t.out = s.out ++ [.num x]) ∨ (∃ h c, i = .prc h c ∧ t.out = s.out ++ [.char c]) ∨
       (∃ a bs, i = .prs a ∧ t.out = s.out ++ [.str bs])))

/-- R24, R30 and R34: no instruction writes IR or the configuration, and only a stop writes RUN or STOP; a machine stops
by HALT, by END, or with a fatal record. Free draws are counted under option I2 alone. -/
def Obligations.ControlStateFrame : Prop :=
  ∀ (i : Instr) (s t : State), exec i s = .next t →
    t.ir = s.ir ∧ t.cfg = s.cfg ∧ (s.cfg.overflow = .wrap → t.draws = s.draws) ∧
    ((t.run = s.run ∧ t.stop = s.stop) ∨
      (t.run = .stopped ∧ t.stop.stopIr = some s.ir ∧ t.stop.stopPc = s.pc - 2#16 ∧
        ((∃ x, i = .halt x ∧ t.stop.cause = .haltInstr) ∨ (∃ x, i = .endSentinel x ∧ t.stop.cause = .endSentinel) ∨
         t.stop.cause = .fatal)))

/-! ### Reset, invariant, call stack -/

/-- R36 and R191: the state at the start of a run, for any configuration, memory and entry address; and reset, whose memory is
zero, so that any word of it is END (R42), and whose stack holds 127 return addresses (R137). ACC, Z, N and SP are the
spec's decisions D5 to D7. That reset has the reference parameters (log entry 1) and the hardware value of both options (log
entry 10) is the model's choice, which no rule of the spec states. -/
def Obligations.RunStartState : Prop :=
  (∀ (c : Config) (m : Memory) (entry : Word),
    (State.start c m entry).pc = entry ∧ (State.start c m entry).mem = m ∧ (State.start c m entry).acc = 0x0000#16 ∧
    (State.start c m entry).z = false ∧ (State.start c m entry).n = false ∧ (State.start c m entry).sp = c.stackBase ∧
    (State.start c m entry).run = .running ∧ (State.start c m entry).out = [] ∧ (State.start c m entry).cfg = c) ∧
  State.reset.cfg.memSize = 4096 ∧ State.reset.cfg.stackBase = 0x0000#16 ∧ State.reset.cfg.stackTop = 0x00FE#16 ∧
  State.reset.cfg.Hardware ∧ State.reset.cfg.stackCapacity = 127 ∧
  ∀ a : Nat, State.reset.mem.read a = 0x00#8 ∧ decodeWord (State.reset.mem.readWord a) = .endSentinel 0x000#12

/-- The invariant holds at reset, at the start of a run of any valid configuration from any well-formed memory within it, and at
the start of a run of any image that fits in memory. -/
def Obligations.RunStartMeetsInv : Prop :=
  State.reset.Inv ∧
  (∀ (c : Config) (m : Memory) (entry : Word), c.Valid → m.wf → m.within c.memSize → (State.start c m entry).Inv) ∧
  ∀ (c : Config) (img : Image), c.Valid → img.data.Fits c.memSize → img.code.Fits c.memSize →
    (∀ x ∈ img.seeds, x.1 + 1 < c.memSize) → (boot c img).Inv

/-- Every step keeps the invariant: canonical memory within MEM_SIZE, the cursor even and within the stack region (R29), the
flags exclusive (R27), legal events only (R150), and a stop record that R84 or R176 explains (R31, R170; the fault address
0x10000 of a PRS scan in 65536 bytes of memory is log entry 4). -/
def Obligations.StepKeepsInv : Prop :=
  ∀ s t : State, s.Inv → step s = .next t → t.Inv

/-- R137: the stack controller is a LIFO stack. From any state that meets the invariant a list of return addresses can be
pushed exactly when it fits below STACK_TOP (D3), from the empty stack exactly when it is no longer than STACK_CAPACITY; popping
as many gives them back in reverse order, leaves SP where it was, and neither changes anything outside the slots. -/
def Obligations.CallStackIsLifo : Prop :=
  ∀ (s : State) (vs : List Word), s.Inv →
    ((∃ t, pushAll vs s = .ok t) ↔ s.sp.toNat + 2 * vs.length ≤ s.cfg.stackTop.toNat) ∧
    (s.sp = s.cfg.stackBase → ((∃ t, pushAll vs s = .ok t) ↔ vs.length ≤ s.cfg.stackCapacity)) ∧
    ∀ t : State, pushAll vs s = .ok t →
      popAll vs.length t = .ok (vs.reverse, { s with mem := t.mem }) ∧
      ∀ c : Nat, (c < s.sp.toNat ∨ s.sp.toNat + 2 * vs.length ≤ c) → t.mem.read c = s.mem.read c

/-! ### Fetch coherence, determinacy of unread state, runs, loading -/

/-- R55 and R195 (decision D18): a STA at `p` that writes the word at `p + 2` changes the instruction the very next step
executes; one that writes its own word completes, and the next execution at `p` runs the stored word. -/
def Obligations.StoreSeenByNextFetch : Prop :=
  ∀ (s : State) (a : Operand), s.Inv → s.run = .running → s.WordOk s.pc.toNat → s.WordOk a.toNat →
    decodeWord (s.mem.readWord s.pc.toNat) = .sta a →
    ∃ t, step s = .next t ∧ t.acc = s.acc ∧ t.pc = s.pc + 2#16 ∧
      (a.toNat = s.pc.toNat + 2 → step t = exec (decodeWord s.acc) (t.latch s.acc)) ∧
      (a.toNat = s.pc.toNat →
        step (t.setPc s.pc) = exec (decodeWord s.acc) ((t.setPc s.pc).latch s.acc))

/-- R24, R36 and I11: what IR and STOP hold before a step of a running machine has no effect on it: the step ends the same
way, in a state that differs at most in an IR no fetch has written and a STOP no stop has written. -/
def Obligations.UnreadRegistersHaveNoEffect : Prop :=
  ∀ (s : State) (w : Word) (r : StopRecord), s.run = .running →
    (∀ q, step s = .refused q → step { s with ir := w, stop := r } = .refused q) ∧
    (∀ t, step s = .next t → ∃ v, (v = t.ir ∨ (v = w ∧ s.WordOut s.pc.toNat)) ∧
      step { s with ir := w, stop := r } =
        .next { t with ir := v, stop := if t.run = .stopped then t.stop else r })

/-- R86 and R198: fuel is only a bound. Once a run has stopped, more fuel gives the same final state; a run that is out of fuel
is still RUNNING or stopped in its last step. A run has no exit status while it is running, and its exit status is STOP's when it
has stopped (R87). -/
def Obligations.FuelOnlyBoundsARun : Prop :=
  (∀ (k j : Nat) (s t : State), runFor k s = .next t → t.run = .stopped → runFor (k + j) s = .next t) ∧
  (∀ (k j : Nat) (s t : State), runFor k s = .next t → runFor (k + j) s = runFor j t) ∧
  (∀ s : State, (s.exitStatus = none ↔ s.run = .running) ∧ (s.run = .stopped → s.exitStatus = some s.stop.status) ∧
    (s.exitStatus = some .normal ↔ s.StoppedNormally))

/-- R190, R191 and R47: at the start of a run of an image of two disjoint regions, every word of a region that no seed overlaps
reads back; every seed that no later seed overlaps left the encoding of its integer in its cell (the later write wins); every
byte outside the seeded cells is as without seeds, and zero outside the regions too; PC is the entry address. The order DATA, CODE,
seeds without a check of the fit is log entry 11. -/
def Obligations.LoadedImageReadsBack : Prop :=
  ∀ (c : Config) (img : Image), img.data.Disjoint img.code →
    (∀ r : Region, r = img.data ∨ r = img.code → ∀ i : Nat, (h : i < r.words.length) →
      (∀ p ∈ img.seeds, CellsApart p.1 (r.base + 2 * i)) → (boot c img).mem.readWord (r.base + 2 * i) = r.words[i]) ∧
    (∀ (pre post : List (Nat × Int)) (a : Nat) (x : Int), img.seeds = pre ++ (a, x) :: post →
      (∀ p ∈ post, CellsApart p.1 a) → (boot c img).mem.readWord a = smenc x) ∧
    (∀ a : Nat, (∀ p ∈ img.seeds, a ≠ p.1 ∧ a ≠ p.1 + 1) →
      (boot c img).mem.read a = (boot c { img with seeds := [] }).mem.read a ∧
      ((a < img.data.base ∨ img.data.base + 2 * img.data.words.length ≤ a) →
        (a < img.code.base ∨ img.code.base + 2 * img.code.words.length ≤ a) → (boot c img).mem.read a = 0x00#8)) ∧
    (boot c img).pc = img.entry

/-! ### The conservative options -/

/-- I1, `MISALIGNED_POLICY = FAULT` (a model option, not the hardware): every word access at an odd address is refused by
name: the fetch, the operand of LDA, STA, ADD, SUB, MUL and PRT, and the stack slot of CAL and RET where the cursor is odd (which
the invariant rules out). -/
def Obligations.MisalignedOptionRefuses : Prop :=
  ∀ s : State, s.cfg.misaligned = .fault →
    (s.run = .running → s.pc.toNat % 2 = 1 → step s = .refused (.misalignedAccess s.pc.toNat)) ∧
    (∀ (i : Instr) (a : Operand), i.wordOperand = some a → a.toNat % 2 = 1 →
      exec i s = .refused (.misalignedAccess a.toNat)) ∧
    (∀ a : Operand, s.sp.toNat % 2 = 1 → s.sp.toNat + 2 ≤ s.cfg.stackTop.toNat →
      exec (.cal a) s = .refused (.misalignedAccess s.sp.toNat)) ∧
    (s.sp.toNat % 2 = 1 → s.sp ≠ s.cfg.stackBase → exec .ret s = .refused (.misalignedAccess (s.sp - 2#16).toNat))

/-- I1 errs toward unprovable: whatever step the machine takes under `FAULT`, the hardware's `BYTE_PAIR` machine takes the same
one. -/
def Obligations.MisalignedOptionOnlyRefuses : Prop :=
  ∀ s t : State, step { s with cfg := { s.cfg with misaligned := .fault } } = .next t →
    step { s with cfg := { s.cfg with misaligned := .bytePair } } =
      .next { t with cfg := { s.cfg with misaligned := .bytePair } }

/-- I2, `OVERFLOW_POLICY = DRAW` (a model option, not the hardware): a result in range is written as the hardware writes it; one
of magnitude 32768 or more writes the free word of this draw, ADD, SUB and MUL take the flags from that word, and IAC leaves them;
each such result makes one draw. -/
def Obligations.OverflowOptionDraws : Prop :=
  ∀ (a : Operand) (s : State), s.cfg.overflow = .draw → s.WordOk a.toNat →
    (∀ p ∈ [(Instr.add a, addExact s.acc (s.mem.readWord a.toNat)), (.sub a, subExact s.acc (s.mem.readWord a.toNat)),
        (.mul a, mulExact s.acc (s.mem.readWord a.toNat))],
      (p.2.natAbs ≤ 32767 → exec p.1 s = .next (withAccAndFlags s (smenc p.2))) ∧
      (32768 ≤ p.2.natAbs → exec p.1 s =
        .next { withAccAndFlags s (Config.freeWord s.draws) with draws := s.draws + 1 })) ∧
    ((incExact s.acc).natAbs ≤ 32767 → exec .iac s = .next { s with acc := smenc (incExact s.acc) }) ∧
    (32768 ≤ (incExact s.acc).natAbs → exec .iac s =
      .next { s with acc := Config.freeWord s.draws, draws := s.draws + 1 })
end

