-- ==== Sys2Proof/Laws/Bits.lean ====
section
/-! SUPPORT. The bit fields of a word as arithmetic: byte order, opcode and operand, and the round trips. -/

namespace Sys2Proof

/-! ### Bytes of a word -/

theorem wordOfBytes_toNat (hi lo : Byte) : (wordOfBytes hi lo).toNat = hi.toNat * 256 + lo.toNat := by
  have h : (wordOfBytes hi lo).toNat = hi.toNat <<< 8 ||| lo.toNat := BitVec.toNat_append hi lo
  rw [h, ← Nat.shiftLeft_add_eq_or_of_lt lo.isLt, Nat.shiftLeft_eq]

theorem hiByte_toNat (w : Word) : (hiByte w).toNat = w.toNat / 256 := by
  have := w.isLt
  simp only [hiByte, BitVec.extractLsb'_toNat, Nat.shiftRight_eq_div_pow]
  omega

theorem loByte_toNat (w : Word) : (loByte w).toNat = w.toNat % 256 := by
  simp [loByte, BitVec.extractLsb'_toNat]

@[simp] theorem hiByte_wordOfBytes (hi lo : Byte) : hiByte (wordOfBytes hi lo) = hi := by
  apply BitVec.eq_of_toNat_eq
  have := lo.isLt
  rw [hiByte_toNat, wordOfBytes_toNat]; omega

@[simp] theorem loByte_wordOfBytes (hi lo : Byte) : loByte (wordOfBytes hi lo) = lo := by
  apply BitVec.eq_of_toNat_eq
  have := lo.isLt
  rw [loByte_toNat, wordOfBytes_toNat]; omega

@[simp] theorem wordOfBytes_hiByte_loByte (w : Word) : wordOfBytes (hiByte w) (loByte w) = w := by
  apply BitVec.eq_of_toNat_eq
  rw [wordOfBytes_toNat, hiByte_toNat, loByte_toNat]; omega

/-! ### Opcode and operand -/

/-- The word of an opcode and an operand (R60). -/
theorem opcodeWord_toNat (op : BitVec 4) (opd : Operand) :
    (op ++ opd : Word).toNat = op.toNat * 4096 + opd.toNat := by
  have h : (op ++ opd : Word).toNat = op.toNat <<< 12 ||| opd.toNat := BitVec.toNat_append op opd
  rw [h, ← Nat.shiftLeft_add_eq_or_of_lt opd.isLt, Nat.shiftLeft_eq]

theorem opcodeField_toNat (w : Word) : (opcodeField w).toNat = w.toNat / 4096 := by
  have := w.isLt
  simp only [opcodeField, BitVec.extractLsb'_toNat, Nat.shiftRight_eq_div_pow]
  omega

theorem operandField_toNat (w : Word) : (operandField w).toNat = w.toNat % 4096 := by
  simp [operandField, BitVec.extractLsb'_toNat]

@[simp] theorem opcodeField_opcodeWord (op : BitVec 4) (opd : Operand) : opcodeField (op ++ opd : Word) = op := by
  apply BitVec.eq_of_toNat_eq
  have := opd.isLt
  rw [opcodeField_toNat, opcodeWord_toNat]; omega

@[simp] theorem operandField_opcodeWord (op : BitVec 4) (opd : Operand) :
    operandField (op ++ opd : Word) = opd := by
  apply BitVec.eq_of_toNat_eq
  have := opd.isLt
  rw [operandField_toNat, opcodeWord_toNat]; omega

@[simp] theorem opcodeWord_fields (w : Word) : (opcodeField w ++ operandField w : Word) = w := by
  apply BitVec.eq_of_toNat_eq
  rw [opcodeWord_toNat, opcodeField_toNat, operandField_toNat]; omega

/-! ### The two fields of a PRC operand -/

theorem prcOperand_toNat (h : BitVec 4) (c : Byte) : (h ++ c : Operand).toNat = h.toNat * 256 + c.toNat := by
  have e : (h ++ c : Operand).toNat = h.toNat <<< 8 ||| c.toNat := BitVec.toNat_append h c
  rw [e, ← Nat.shiftLeft_add_eq_or_of_lt c.isLt, Nat.shiftLeft_eq]

@[simp] theorem prcOperand_high (h : BitVec 4) (c : Byte) : (h ++ c : Operand).extractLsb' 8 4 = h := by
  apply BitVec.eq_of_toNat_eq
  have := c.isLt
  have := h.isLt
  rw [BitVec.extractLsb'_toNat, prcOperand_toNat, Nat.shiftRight_eq_div_pow]
  omega

@[simp] theorem prcOperand_low (h : BitVec 4) (c : Byte) : (h ++ c : Operand).extractLsb' 0 8 = c := by
  apply BitVec.eq_of_toNat_eq
  have := c.isLt
  rw [BitVec.extractLsb'_toNat, prcOperand_toNat, Nat.shiftRight_eq_div_pow]
  omega

@[simp] theorem prcOperand_fields (opd : Operand) :
    (opd.extractLsb' 8 4 ++ opd.extractLsb' 0 8 : Operand) = opd := by
  apply BitVec.eq_of_toNat_eq
  have := opd.isLt
  rw [prcOperand_toNat, BitVec.extractLsb'_toNat, BitVec.extractLsb'_toNat, Nat.shiftRight_eq_div_pow,
    Nat.shiftRight_eq_div_pow]
  omega

/-- A HALT is well-formed exactly when its sub-code selects neither IAC nor RET (R65). -/
@[simp] theorem Instr.wellFormed_halt (x : Operand) :
    (Instr.halt x).WellFormed ↔ x ≠ 0x002#12 ∧ x ≠ 0x005#12 := by
  simp only [Instr.WellFormed, Instr.illFormed?]
  split
  · simp_all
  · split <;> simp_all

/-- The word of an opcode and an operand decodes as the opcode map has it (R71). -/
@[simp] theorem decodeWord_opcodeWord (op : BitVec 4) (opd : Operand) :
    decodeWord (op ++ opd : Word) = decodeFields op opd := by
  simp only [decodeWord, opcodeField_opcodeWord, operandField_opcodeWord]

end Sys2Proof
end

