-- ==== Sys2Proof/Laws/Codec.lean ====
section
/-! SUPPORT. The codec and the flags as arithmetic on the number of a word. -/

namespace Sys2Proof.Machine

theorem magnitude_toNat (w : Word) : (magnitude w).toNat = w.toNat % 32768 := by
  simp [magnitude, BitVec.extractLsb'_toNat]

theorem msb_eq_true_iff (w : Word) : w.msb = true ↔ 32768 ≤ w.toNat := by
  simp [BitVec.msb_eq_decide]

/-- The integer of a word (R90) from its number. -/
theorem smdec_eq (w : Word) : smdec w = if w.toNat < 32768 then (w.toNat : Int) else 32768 - (w.toNat : Int) := by
  have := w.isLt
  unfold smdec
  rw [magnitude_toNat]
  split <;> rename_i h
  · rw [msb_eq_true_iff] at h
    rw [if_neg (by omega)]; omega
  · rw [msb_eq_true_iff] at h
    rw [if_pos (by omega)]; omega

theorem smdec_bounds (w : Word) : -32767 ≤ smdec w ∧ smdec w ≤ 32767 := by
  have := w.isLt
  rw [smdec_eq]; split <;> omega

/-- The number of an encoded integer (R91). -/
theorem smenc_toNat (x : Int) : (smenc x).toNat = (if x < 0 then 32768 else 0) + x.natAbs % 32768 := by
  have h : (smenc x).toNat =
      (if x < 0 then 1#1 else 0#1 : BitVec 1).toNat <<< 15 ||| (BitVec.ofNat 15 (x.natAbs % 2 ^ 15)).toNat :=
    BitVec.toNat_append _ _
  have hlt : x.natAbs % 2 ^ 15 < 2 ^ 15 := Nat.mod_lt _ (by decide)
  rw [h, ← Nat.shiftLeft_add_eq_or_of_lt (BitVec.isLt _), BitVec.toNat_ofNat, Nat.mod_eq_of_lt hlt,
    Nat.shiftLeft_eq]
  split <;> simp

theorem flagZ_eq_true_iff (w : Word) : flagZ w = true ↔ w.toNat % 32768 = 0 := by
  rw [flagZ, beq_iff_eq, ← magnitude_toNat, ← BitVec.toNat_inj]; rfl

theorem flagN_eq_true_iff (w : Word) : flagN w = true ↔ 32768 < w.toNat := by
  have := w.isLt
  rw [flagN, Bool.and_eq_true, bne_iff_ne, msb_eq_true_iff, ne_eq, ← BitVec.toNat_inj, magnitude_toNat]
  simp; omega

end Sys2Proof.Machine
end

