-- ==== Sys2Proof/Laws/Memory.lean ====
section
/-! SUPPORT. What the memory operations do: reads after writes, the canonical form, and the bound. -/

namespace Sys2Proof.Machine

/-! ### Cells -/

theorem Memory.read_cell (a : Nat) (b : Byte) (rest : Memory) (c : Nat) (h : rest.read a = Memory.unlisted) :
    (Memory.cell a b rest).read c = if c = a then b else rest.read c := by
  unfold Memory.cell
  split
  · split
    · simp_all
    · rfl
  · rfl

theorem Memory.mem_cell {a : Nat} {b : Byte} {rest : Memory} {x : Host.Cell} (h : x ∈ Memory.cell a b rest) :
    (x = (a, b) ∧ b ≠ Memory.unlisted) ∨ x ∈ rest := by
  unfold Memory.cell at h
  split at h
  · exact .inr h
  · rcases List.mem_cons.1 h with rfl | h
    · exact .inl ⟨rfl, ‹_›⟩
    · exact .inr h

/-- An address no entry lists reads as an unlisted one. -/
theorem Memory.read_of_forall_ne {m : Memory} {a : Nat} (h : ∀ x ∈ m, x.1 ≠ a) : m.read a = Memory.unlisted := by
  induction m with
  | nil => rfl
  | cons x rest ih =>
    obtain ⟨k, b⟩ := x
    have hk : k ≠ a := h (k, b) (by simp)
    rw [Memory.read, if_neg (Ne.symm hk), ih fun y hy => h y (by simp [hy])]

/-! ### The canonical form, entry by entry -/

theorem Memory.wf_nil : Memory.wf [] := by simp [Memory.wf]

theorem Memory.wf_cons {k : Nat} {b : Byte} {rest : Memory} :
    Memory.wf ((k, b) :: rest) ↔ (∀ x ∈ rest, k < x.1) ∧ b ≠ Memory.unlisted ∧ Memory.wf rest := by
  simp only [Memory.wf, List.pairwise_cons, List.forall_mem_cons]
  tauto

theorem Memory.wf_cell {a : Nat} {b : Byte} {rest : Memory} (h : ∀ x ∈ rest, a < x.1) (hr : rest.wf) :
    (Memory.cell a b rest).wf := by
  unfold Memory.cell
  split
  · exact hr
  · exact Memory.wf_cons.2 ⟨h, ‹_›, hr⟩

/-! ### Writes -/

/-- An entry of a written memory is the written cell or an old entry at another address. -/
theorem Memory.mem_write {m : Memory} {a : Nat} {b : Byte} {x : Host.Cell} (h : x ∈ m.write a b) :
    x.1 = a ∨ x ∈ m := by
  induction m with
  | nil =>
    rcases Memory.mem_cell h with ⟨rfl, -⟩ | h
    · exact .inl rfl
    · exact .inr h
  | cons y rest ih =>
    obtain ⟨k, c⟩ := y
    rw [Memory.write] at h
    split at h
    · rcases Memory.mem_cell h with ⟨rfl, -⟩ | h
      · exact .inl rfl
      · exact .inr h
    · split at h
      · rcases Memory.mem_cell h with ⟨rfl, -⟩ | h
        · exact .inl rfl
        · exact .inr (List.mem_cons_of_mem _ h)
      · rcases List.mem_cons.1 h with rfl | h
        · exact .inr List.mem_cons_self
        · exact (ih h).imp id (List.mem_cons_of_mem _)

/-- A write keeps the canonical form. -/
theorem Memory.wf_write {m : Memory} (h : m.wf) (a : Nat) (b : Byte) : (m.write a b).wf := by
  induction m with
  | nil => exact Memory.wf_cell (by simp) Memory.wf_nil
  | cons y rest ih =>
    obtain ⟨k, c⟩ := y
    obtain ⟨hk, hc, hr⟩ := Memory.wf_cons.1 h
    rw [Memory.write]
    split
    · refine Memory.wf_cell (fun x hx => ?_) h
      rcases List.mem_cons.1 hx with rfl | hx
      · assumption
      · exact Nat.lt_trans ‹a < k› (hk x hx)
    · split
      · subst a; exact Memory.wf_cell hk hr
      · refine Memory.wf_cons.2 ⟨fun x hx => ?_, hc, ih hr⟩
        rcases Memory.mem_write hx with hx | hx
        · omega
        · exact hk x hx

/-- A write changes the byte it names and no other. -/
theorem Memory.read_write {m : Memory} (h : m.wf) (a : Nat) (b : Byte) (c : Nat) :
    (m.write a b).read c = if c = a then b else m.read c := by
  induction m with
  | nil => exact Memory.read_cell a b [] c rfl
  | cons y rest ih =>
    obtain ⟨k, d⟩ := y
    obtain ⟨hk, hd, hr⟩ := Memory.wf_cons.1 h
    rw [Memory.write]
    split
    · refine Memory.read_cell a b _ c (Memory.read_of_forall_ne fun x hx => ?_)
      rcases List.mem_cons.1 hx with rfl | hx
      · simp only; omega
      · have := hk x hx; omega
    · split
      · subst a
        rw [Memory.read_cell k b rest c (Memory.read_of_forall_ne fun x hx => by have := hk x hx; omega),
          Memory.read]
        split <;> rfl
      · simp only [Memory.read, ih hr]
        split <;> split <;> first | rfl | omega

/-- A write in bounds keeps every listed address in bounds. -/
theorem Memory.within_write {m : Memory} {size : Nat} (h : m.within size) {a : Nat} (ha : a < size) (b : Byte) :
    (m.write a b).within size := fun x hx => by
  rcases Memory.mem_write hx with rfl | hx
  · exact ha
  · exact h x hx

/-- In the canonical form, memories that read alike are equal. -/
theorem Memory.ext_of_wf {m m' : Memory} (h : m.wf) (h' : m'.wf) (e : ∀ a, m.read a = m'.read a) : m = m' := by
  induction m generalizing m' with
  | nil =>
    cases m' with
    | nil => rfl
    | cons y rest =>
      obtain ⟨k, b⟩ := y
      exact absurd (by simpa [Memory.read] using (e k).symm) (Memory.wf_cons.1 h').2.1
  | cons x rest ih =>
    obtain ⟨k, b⟩ := x
    obtain ⟨hk, hb, hr⟩ := Memory.wf_cons.1 h
    cases m' with
    | nil => exact absurd (by simpa [Memory.read] using e k) hb
    | cons y rest' =>
      obtain ⟨k', b'⟩ := y
      obtain ⟨hk', hb', hr'⟩ := Memory.wf_cons.1 h'
      have hne : ∀ {q : Memory} {j i : Nat}, (∀ x ∈ q, j < x.1) → i ≤ j → q.read i = Memory.unlisted :=
        fun hq hi => Memory.read_of_forall_ne fun x hx => by have := hq x hx; omega
      have hkk : k = k' := by
        rcases Nat.lt_trichotomy k k' with hlt | rfl | hlt
        · have := e k
          rw [Memory.read, if_pos rfl, Memory.read, if_neg (by omega), hne hk' (by omega)] at this
          exact absurd this hb
        · rfl
        · have := e k'
          rw [Memory.read, if_neg (by omega), Memory.read, if_pos rfl, hne hk (by omega)] at this
          exact absurd this.symm hb'
      subst hkk
      have hbb : b = b' := by simpa [Memory.read] using e k
      subst hbb
      congr 1
      refine ih hr hr' fun a => ?_
      by_cases ha : a = k
      · subst ha; rw [hne hk le_rfl, hne hk' le_rfl]
      · simpa [Memory.read, ha] using e a

/-! ### Words -/

theorem Memory.wf_writeWord {m : Memory} (h : m.wf) (a : Nat) (v : Word) : (m.writeWord a v).wf :=
  Memory.wf_write (Memory.wf_write h _ _) _ _

theorem Memory.within_writeWord {m : Memory} {size : Nat} (h : m.within size) {a : Nat} (ha : a + 1 < size)
    (v : Word) : (m.writeWord a v).within size :=
  Memory.within_write (Memory.within_write h (by omega) _) ha _

/-- A word write changes its two bytes, high byte first, and no other. -/
theorem Memory.read_writeWord {m : Memory} (h : m.wf) (a : Nat) (v : Word) (c : Nat) :
    (m.writeWord a v).read c = if c = a then hiByte v else if c = a + 1 then loByte v else m.read c := by
  rw [Memory.writeWord, Memory.read_write (Memory.wf_write h _ _), Memory.read_write h]
  split <;> split <;> first | rfl | omega

@[simp] theorem Memory.readWord_writeWord {m : Memory} (h : m.wf) (a : Nat) (v : Word) :
    (m.writeWord a v).readWord a = v := by
  simp [Memory.readWord, Memory.read_writeWord h]

/-- A word apart from the one written reads as before. -/
theorem Memory.readWord_writeWord_of_apart {m : Memory} (h : m.wf) {a b : Nat} (v : Word)
    (hab : b + 1 < a ∨ a + 1 < b) : (m.writeWord a v).readWord b = m.readWord b := by
  simp only [Memory.readWord, Memory.read_writeWord h]
  rw [if_neg (by omega), if_neg (by omega), if_neg (by omega), if_neg (by omega)]

/-! ### Loading -/

theorem Memory.wf_loadWords (ws : List Word) : ∀ {m : Memory}, m.wf → ∀ a, (m.loadWords a ws).wf := by
  induction ws with
  | nil => intro m h a; exact h
  | cons w ws ih => intro m h a; exact ih (Memory.wf_writeWord h a w) (a + 2)

/-- Loading leaves every byte outside the loaded words alone. -/
theorem Memory.read_loadWords_of_outside (ws : List Word) : ∀ {m : Memory}, m.wf → ∀ {a c : Nat},
    (c < a ∨ a + 2 * ws.length ≤ c) → (m.loadWords a ws).read c = m.read c := by
  induction ws with
  | nil => intro m _ a c _; rfl
  | cons w ws ih =>
    intro m h a c hc
    simp only [List.length_cons] at hc
    rw [Memory.loadWords, ih (Memory.wf_writeWord h a w) (by omega), Memory.read_writeWord h,
      if_neg (by omega), if_neg (by omega)]

/-- Each loaded word reads back. -/
theorem Memory.readWord_loadWords (ws : List Word) : ∀ {m : Memory}, m.wf → ∀ {a i : Nat} (hi : i < ws.length),
    (m.loadWords a ws).readWord (a + 2 * i) = ws[i] := by
  induction ws with
  | nil => intro m _ a i hi; simp at hi
  | cons w ws ih =>
    intro m h a i hi
    rw [Memory.loadWords]
    cases i with
    | zero =>
      have hw := Memory.wf_writeWord h a w
      simp only [Memory.readWord, Nat.mul_zero, Nat.add_zero, List.getElem_cons_zero]
      rw [Memory.read_loadWords_of_outside ws hw (by omega), Memory.read_loadWords_of_outside ws hw (by omega)]
      exact Memory.readWord_writeWord h a w
    | succ i =>
      have := ih (Memory.wf_writeWord h a w) (a := a + 2) (i := i) (by simpa using hi)
      simpa [Nat.mul_add, Nat.add_assoc, Nat.add_comm 2] using this

theorem Memory.wf_seed (l : List (Nat × Int)) : ∀ {m : Memory}, m.wf → (m.seed l).wf := by
  induction l with
  | nil => intro m h; exact h
  | cons x l ih => intro m h; exact ih (Memory.wf_writeWord h x.1 (smenc x.2))

/-- Seeding leaves every byte outside the seeded cells alone. -/
theorem Memory.read_seed_of_outside (l : List (Nat × Int)) : ∀ {m : Memory}, m.wf → ∀ {c : Nat},
    (∀ p ∈ l, c ≠ p.1 ∧ c ≠ p.1 + 1) → (m.seed l).read c = m.read c := by
  induction l with
  | nil => intro m _ c _; rfl
  | cons x l ih =>
    intro m h c hc
    have hx := hc x (by simp)
    rw [Memory.seed, ih (Memory.wf_writeWord h x.1 (smenc x.2)) fun p hp => hc p (by simp [hp]), Memory.read_writeWord h,
      if_neg hx.1, if_neg hx.2]

/-- A word that no seeded cell overlaps is as it was before the seeding. -/
theorem Memory.readWord_seed_of_apart (l : List (Nat × Int)) {m : Memory} (h : m.wf) {a : Nat}
    (ha : ∀ p ∈ l, CellsApart p.1 a) : (m.seed l).readWord a = m.readWord a := by
  rw [Memory.readWord, Memory.readWord, Memory.read_seed_of_outside l h fun p hp => by have := ha p hp; omega,
    Memory.read_seed_of_outside l h fun p hp => by have := ha p hp; omega]

/-- Loading words that fit keeps every listed address in bounds. -/
theorem Memory.within_loadWords (ws : List Word) : ∀ {m : Memory} {a size : Nat}, m.within size →
    a + 2 * ws.length ≤ size → (m.loadWords a ws).within size := by
  induction ws with
  | nil => intro m a size h _; exact h
  | cons w ws ih =>
    intro m a size h hl
    simp only [List.length_cons] at hl
    exact ih (Memory.within_writeWord h (by omega) w) (by omega)

/-- Seeding cells that fit keeps every listed address in bounds. -/
theorem Memory.within_seed (l : List (Nat × Int)) : ∀ {m : Memory} {size : Nat}, m.within size →
    (∀ x ∈ l, x.1 + 1 < size) → (m.seed l).within size := by
  induction l with
  | nil => intro m size h _; exact h
  | cons x l ih =>
    intro m size h hl
    exact ih (Memory.within_writeWord h (hl x (by simp)) _) fun y hy => hl y (by simp [hy])

theorem Memory.seed_append (l l' : List (Nat × Int)) : ∀ m : Memory, m.seed (l ++ l') = (m.seed l).seed l' := by
  induction l with
  | nil => intro m; rfl
  | cons x l ih => intro m; exact ih _

/-- A seeded cell that no later seed overlaps holds the encoding of its integer. -/
theorem Memory.readWord_seed_of_mem (pre post : List (Nat × Int)) {m : Memory} (h : m.wf) (a : Nat) (x : Int)
    (hp : ∀ p ∈ post, CellsApart p.1 a) : (m.seed (pre ++ (a, x) :: post)).readWord a = smenc x := by
  have hw := Memory.wf_seed pre h
  rw [Memory.seed_append, Memory.seed, Memory.readWord_seed_of_apart post (Memory.wf_writeWord hw a (smenc x)) hp]
  exact Memory.readWord_writeWord hw a (smenc x)

end Sys2Proof.Machine
end

