-- ==== Sys2Proof/Laws/State.lean ====
section
/-! SUPPORT. One lemma per field of State per named update, so that no proof unfolds an update. -/

namespace Sys2Proof.Machine

variable (s : State)

/-! `State.setAcc` -/
@[simp] theorem State.setAcc_acc (v : Word) : (s.setAcc v).acc = v := rfl
@[simp] theorem State.setAcc_pc (v : Word) : (s.setAcc v).pc = s.pc := rfl
@[simp] theorem State.setAcc_ir (v : Word) : (s.setAcc v).ir = s.ir := rfl
@[simp] theorem State.setAcc_z (v : Word) : (s.setAcc v).z = s.z := rfl
@[simp] theorem State.setAcc_n (v : Word) : (s.setAcc v).n = s.n := rfl
@[simp] theorem State.setAcc_sp (v : Word) : (s.setAcc v).sp = s.sp := rfl
@[simp] theorem State.setAcc_run (v : Word) : (s.setAcc v).run = s.run := rfl
@[simp] theorem State.setAcc_stop (v : Word) : (s.setAcc v).stop = s.stop := rfl
@[simp] theorem State.setAcc_mem (v : Word) : (s.setAcc v).mem = s.mem := rfl
@[simp] theorem State.setAcc_out (v : Word) : (s.setAcc v).out = s.out := rfl
@[simp] theorem State.setAcc_cfg (v : Word) : (s.setAcc v).cfg = s.cfg := rfl
@[simp] theorem State.setAcc_draws (v : Word) : (s.setAcc v).draws = s.draws := rfl

/-! `State.setFlags` -/
@[simp] theorem State.setFlags_acc (w : Word) : (s.setFlags w).acc = s.acc := rfl
@[simp] theorem State.setFlags_pc (w : Word) : (s.setFlags w).pc = s.pc := rfl
@[simp] theorem State.setFlags_ir (w : Word) : (s.setFlags w).ir = s.ir := rfl
@[simp] theorem State.setFlags_z (w : Word) : (s.setFlags w).z = flagZ w := rfl
@[simp] theorem State.setFlags_n (w : Word) : (s.setFlags w).n = flagN w := rfl
@[simp] theorem State.setFlags_sp (w : Word) : (s.setFlags w).sp = s.sp := rfl
@[simp] theorem State.setFlags_run (w : Word) : (s.setFlags w).run = s.run := rfl
@[simp] theorem State.setFlags_stop (w : Word) : (s.setFlags w).stop = s.stop := rfl
@[simp] theorem State.setFlags_mem (w : Word) : (s.setFlags w).mem = s.mem := rfl
@[simp] theorem State.setFlags_out (w : Word) : (s.setFlags w).out = s.out := rfl
@[simp] theorem State.setFlags_cfg (w : Word) : (s.setFlags w).cfg = s.cfg := rfl
@[simp] theorem State.setFlags_draws (w : Word) : (s.setFlags w).draws = s.draws := rfl

/-! `State.setPc` -/
@[simp] theorem State.setPc_acc (v : Word) : (s.setPc v).acc = s.acc := rfl
@[simp] theorem State.setPc_pc (v : Word) : (s.setPc v).pc = v := rfl
@[simp] theorem State.setPc_ir (v : Word) : (s.setPc v).ir = s.ir := rfl
@[simp] theorem State.setPc_z (v : Word) : (s.setPc v).z = s.z := rfl
@[simp] theorem State.setPc_n (v : Word) : (s.setPc v).n = s.n := rfl
@[simp] theorem State.setPc_sp (v : Word) : (s.setPc v).sp = s.sp := rfl
@[simp] theorem State.setPc_run (v : Word) : (s.setPc v).run = s.run := rfl
@[simp] theorem State.setPc_stop (v : Word) : (s.setPc v).stop = s.stop := rfl
@[simp] theorem State.setPc_mem (v : Word) : (s.setPc v).mem = s.mem := rfl
@[simp] theorem State.setPc_out (v : Word) : (s.setPc v).out = s.out := rfl
@[simp] theorem State.setPc_cfg (v : Word) : (s.setPc v).cfg = s.cfg := rfl
@[simp] theorem State.setPc_draws (v : Word) : (s.setPc v).draws = s.draws := rfl

/-! `State.setSp` -/
@[simp] theorem State.setSp_acc (v : Word) : (s.setSp v).acc = s.acc := rfl
@[simp] theorem State.setSp_pc (v : Word) : (s.setSp v).pc = s.pc := rfl
@[simp] theorem State.setSp_ir (v : Word) : (s.setSp v).ir = s.ir := rfl
@[simp] theorem State.setSp_z (v : Word) : (s.setSp v).z = s.z := rfl
@[simp] theorem State.setSp_n (v : Word) : (s.setSp v).n = s.n := rfl
@[simp] theorem State.setSp_sp (v : Word) : (s.setSp v).sp = v := rfl
@[simp] theorem State.setSp_run (v : Word) : (s.setSp v).run = s.run := rfl
@[simp] theorem State.setSp_stop (v : Word) : (s.setSp v).stop = s.stop := rfl
@[simp] theorem State.setSp_mem (v : Word) : (s.setSp v).mem = s.mem := rfl
@[simp] theorem State.setSp_out (v : Word) : (s.setSp v).out = s.out := rfl
@[simp] theorem State.setSp_cfg (v : Word) : (s.setSp v).cfg = s.cfg := rfl
@[simp] theorem State.setSp_draws (v : Word) : (s.setSp v).draws = s.draws := rfl

/-! `State.emit` -/
@[simp] theorem State.emit_acc (e : Event) : (s.emit e).acc = s.acc := rfl
@[simp] theorem State.emit_pc (e : Event) : (s.emit e).pc = s.pc := rfl
@[simp] theorem State.emit_ir (e : Event) : (s.emit e).ir = s.ir := rfl
@[simp] theorem State.emit_z (e : Event) : (s.emit e).z = s.z := rfl
@[simp] theorem State.emit_n (e : Event) : (s.emit e).n = s.n := rfl
@[simp] theorem State.emit_sp (e : Event) : (s.emit e).sp = s.sp := rfl
@[simp] theorem State.emit_run (e : Event) : (s.emit e).run = s.run := rfl
@[simp] theorem State.emit_stop (e : Event) : (s.emit e).stop = s.stop := rfl
@[simp] theorem State.emit_mem (e : Event) : (s.emit e).mem = s.mem := rfl
@[simp] theorem State.emit_out (e : Event) : (s.emit e).out = s.out ++ [e] := rfl
@[simp] theorem State.emit_cfg (e : Event) : (s.emit e).cfg = s.cfg := rfl
@[simp] theorem State.emit_draws (e : Event) : (s.emit e).draws = s.draws := rfl

/-! `State.latch` -/
@[simp] theorem State.latch_acc (w : Word) : (s.latch w).acc = s.acc := rfl
@[simp] theorem State.latch_pc (w : Word) : (s.latch w).pc = s.pc + 2#16 := rfl
@[simp] theorem State.latch_ir (w : Word) : (s.latch w).ir = w := rfl
@[simp] theorem State.latch_z (w : Word) : (s.latch w).z = s.z := rfl
@[simp] theorem State.latch_n (w : Word) : (s.latch w).n = s.n := rfl
@[simp] theorem State.latch_sp (w : Word) : (s.latch w).sp = s.sp := rfl
@[simp] theorem State.latch_run (w : Word) : (s.latch w).run = s.run := rfl
@[simp] theorem State.latch_stop (w : Word) : (s.latch w).stop = s.stop := rfl
@[simp] theorem State.latch_mem (w : Word) : (s.latch w).mem = s.mem := rfl
@[simp] theorem State.latch_out (w : Word) : (s.latch w).out = s.out := rfl
@[simp] theorem State.latch_cfg (w : Word) : (s.latch w).cfg = s.cfg := rfl
@[simp] theorem State.latch_draws (w : Word) : (s.latch w).draws = s.draws := rfl

/-! `State.raise` -/
@[simp] theorem State.raise_acc (k : FatalCondition) (p : Word) (w : Option Word) (a : Option Nat) : (s.raise k p w a).acc = s.acc := rfl
@[simp] theorem State.raise_pc (k : FatalCondition) (p : Word) (w : Option Word) (a : Option Nat) : (s.raise k p w a).pc = s.pc := rfl
@[simp] theorem State.raise_ir (k : FatalCondition) (p : Word) (w : Option Word) (a : Option Nat) : (s.raise k p w a).ir = s.ir := rfl
@[simp] theorem State.raise_z (k : FatalCondition) (p : Word) (w : Option Word) (a : Option Nat) : (s.raise k p w a).z = s.z := rfl
@[simp] theorem State.raise_n (k : FatalCondition) (p : Word) (w : Option Word) (a : Option Nat) : (s.raise k p w a).n = s.n := rfl
@[simp] theorem State.raise_sp (k : FatalCondition) (p : Word) (w : Option Word) (a : Option Nat) : (s.raise k p w a).sp = s.sp := rfl
@[simp] theorem State.raise_run (k : FatalCondition) (p : Word) (w : Option Word) (a : Option Nat) : (s.raise k p w a).run = .stopped := rfl
@[simp] theorem State.raise_stop (k : FatalCondition) (p : Word) (w : Option Word) (a : Option Nat) : (s.raise k p w a).stop = ⟨.fatal k, .fatal, p, w, a⟩ := rfl
@[simp] theorem State.raise_mem (k : FatalCondition) (p : Word) (w : Option Word) (a : Option Nat) : (s.raise k p w a).mem = s.mem := rfl
@[simp] theorem State.raise_out (k : FatalCondition) (p : Word) (w : Option Word) (a : Option Nat) : (s.raise k p w a).out = s.out := rfl
@[simp] theorem State.raise_cfg (k : FatalCondition) (p : Word) (w : Option Word) (a : Option Nat) : (s.raise k p w a).cfg = s.cfg := rfl
@[simp] theorem State.raise_draws (k : FatalCondition) (p : Word) (w : Option Word) (a : Option Nat) : (s.raise k p w a).draws = s.draws := rfl

/-! `State.halt` -/
@[simp] theorem State.halt_acc (c : StopCause) : (s.halt c).acc = s.acc := rfl
@[simp] theorem State.halt_pc (c : StopCause) : (s.halt c).pc = s.pc := rfl
@[simp] theorem State.halt_ir (c : StopCause) : (s.halt c).ir = s.ir := rfl
@[simp] theorem State.halt_z (c : StopCause) : (s.halt c).z = s.z := rfl
@[simp] theorem State.halt_n (c : StopCause) : (s.halt c).n = s.n := rfl
@[simp] theorem State.halt_sp (c : StopCause) : (s.halt c).sp = s.sp := rfl
@[simp] theorem State.halt_run (c : StopCause) : (s.halt c).run = .stopped := rfl
@[simp] theorem State.halt_stop (c : StopCause) : (s.halt c).stop = ⟨.normal, c, s.fpc, some s.ir, none⟩ := rfl
@[simp] theorem State.halt_mem (c : StopCause) : (s.halt c).mem = s.mem := rfl
@[simp] theorem State.halt_out (c : StopCause) : (s.halt c).out = s.out := rfl
@[simp] theorem State.halt_cfg (c : StopCause) : (s.halt c).cfg = s.cfg := rfl
@[simp] theorem State.halt_draws (c : StopCause) : (s.halt c).draws = s.draws := rfl

/-! `State.countDraw`, `State.putResult`, `State.putResultFlags`: only the draw counter depends on the policy. -/
@[simp] theorem State.countDraw_acc (x : Int) : (s.countDraw x).acc = s.acc := by
  unfold State.countDraw; split <;> rfl
@[simp] theorem State.countDraw_pc (x : Int) : (s.countDraw x).pc = s.pc := by
  unfold State.countDraw; split <;> rfl
@[simp] theorem State.countDraw_ir (x : Int) : (s.countDraw x).ir = s.ir := by
  unfold State.countDraw; split <;> rfl
@[simp] theorem State.countDraw_z (x : Int) : (s.countDraw x).z = s.z := by
  unfold State.countDraw; split <;> rfl
@[simp] theorem State.countDraw_n (x : Int) : (s.countDraw x).n = s.n := by
  unfold State.countDraw; split <;> rfl
@[simp] theorem State.countDraw_sp (x : Int) : (s.countDraw x).sp = s.sp := by
  unfold State.countDraw; split <;> rfl
@[simp] theorem State.countDraw_run (x : Int) : (s.countDraw x).run = s.run := by
  unfold State.countDraw; split <;> rfl
@[simp] theorem State.countDraw_stop (x : Int) : (s.countDraw x).stop = s.stop := by
  unfold State.countDraw; split <;> rfl
@[simp] theorem State.countDraw_mem (x : Int) : (s.countDraw x).mem = s.mem := by
  unfold State.countDraw; split <;> rfl
@[simp] theorem State.countDraw_out (x : Int) : (s.countDraw x).out = s.out := by
  unfold State.countDraw; split <;> rfl
@[simp] theorem State.countDraw_cfg (x : Int) : (s.countDraw x).cfg = s.cfg := by
  unfold State.countDraw; split <;> rfl
@[simp] theorem State.putResult_acc (x : Int) : (s.putResult x).acc = s.resultWord x := by
  simp [State.putResult]
@[simp] theorem State.putResult_pc (x : Int) : (s.putResult x).pc = s.pc := by
  simp [State.putResult]
@[simp] theorem State.putResult_ir (x : Int) : (s.putResult x).ir = s.ir := by
  simp [State.putResult]
@[simp] theorem State.putResult_z (x : Int) : (s.putResult x).z = s.z := by
  simp [State.putResult]
@[simp] theorem State.putResult_n (x : Int) : (s.putResult x).n = s.n := by
  simp [State.putResult]
@[simp] theorem State.putResult_sp (x : Int) : (s.putResult x).sp = s.sp := by
  simp [State.putResult]
@[simp] theorem State.putResult_run (x : Int) : (s.putResult x).run = s.run := by
  simp [State.putResult]
@[simp] theorem State.putResult_stop (x : Int) : (s.putResult x).stop = s.stop := by
  simp [State.putResult]
@[simp] theorem State.putResult_mem (x : Int) : (s.putResult x).mem = s.mem := by
  simp [State.putResult]
@[simp] theorem State.putResult_out (x : Int) : (s.putResult x).out = s.out := by
  simp [State.putResult]
@[simp] theorem State.putResult_cfg (x : Int) : (s.putResult x).cfg = s.cfg := by
  simp [State.putResult]
@[simp] theorem State.putResultFlags_acc (x : Int) : (s.putResultFlags x).acc = s.resultWord x := by
  simp [State.putResultFlags]
@[simp] theorem State.putResultFlags_pc (x : Int) : (s.putResultFlags x).pc = s.pc := by
  simp [State.putResultFlags]
@[simp] theorem State.putResultFlags_ir (x : Int) : (s.putResultFlags x).ir = s.ir := by
  simp [State.putResultFlags]
@[simp] theorem State.putResultFlags_z (x : Int) : (s.putResultFlags x).z = flagZ (s.resultWord x) := by
  simp [State.putResultFlags]
@[simp] theorem State.putResultFlags_n (x : Int) : (s.putResultFlags x).n = flagN (s.resultWord x) := by
  simp [State.putResultFlags]
@[simp] theorem State.putResultFlags_sp (x : Int) : (s.putResultFlags x).sp = s.sp := by
  simp [State.putResultFlags]
@[simp] theorem State.putResultFlags_run (x : Int) : (s.putResultFlags x).run = s.run := by
  simp [State.putResultFlags]
@[simp] theorem State.putResultFlags_stop (x : Int) : (s.putResultFlags x).stop = s.stop := by
  simp [State.putResultFlags]
@[simp] theorem State.putResultFlags_mem (x : Int) : (s.putResultFlags x).mem = s.mem := by
  simp [State.putResultFlags]
@[simp] theorem State.putResultFlags_out (x : Int) : (s.putResultFlags x).out = s.out := by
  simp [State.putResultFlags]
@[simp] theorem State.putResultFlags_cfg (x : Int) : (s.putResultFlags x).cfg = s.cfg := by
  simp [State.putResultFlags]

end Sys2Proof.Machine
end

