-- ==== Sys2Proof/Laws/Ops.lean ====
section
/-! SUPPORT. What each shared operation can do, said once: accesses, scan, call stack, traps, fetch. -/

namespace Sys2Proof.Machine

variable {s t : State} {a : Nat}

/-! ### Word accesses -/

theorem State.wordTrap_of_ok (h : s.WordOk a) : s.wordTrap a = none := by
  obtain ⟨hm, hb⟩ := h
  unfold State.wordTrap
  rw [if_neg, if_neg (by omega)]
  rintro ⟨h1, h2⟩
  rcases hm with hm | hm
  · simp [hm] at h1
  · omega

theorem State.wordTrap_of_out (h : s.WordOut a) : s.wordTrap a = some (.fatal .memoryBounds (some a)) := by
  obtain ⟨hm, hb⟩ := h
  unfold State.wordTrap
  rw [if_neg, if_pos hb]
  rintro ⟨h1, h2⟩
  rcases hm with hm | hm
  · simp [hm] at h1
  · omega

theorem State.wordTrap_of_odd (h : s.cfg.misaligned = .fault) (ho : a % 2 = 1) :
    s.wordTrap a = some (.misaligned a) := if_pos ⟨h, ho⟩

/-- The three outcomes of the check of a word access. -/
theorem State.wordTrap_cases (s : State) (a : Nat) :
    (s.WordOk a ∧ s.wordTrap a = none) ∨ (s.WordOut a ∧ s.wordTrap a = some (.fatal .memoryBounds (some a))) ∨
      (s.cfg.misaligned = .fault ∧ a % 2 = 1 ∧ s.wordTrap a = some (.misaligned a)) := by
  by_cases ho : s.cfg.misaligned = .fault ∧ a % 2 = 1
  · exact .inr (.inr ⟨ho.1, ho.2, State.wordTrap_of_odd ho.1 ho.2⟩)
  · have hm : s.cfg.misaligned = .bytePair ∨ a % 2 = 0 := by
      cases h : s.cfg.misaligned
      · exact .inl rfl
      · right; have : ¬a % 2 = 1 := fun h' => ho ⟨h, h'⟩
        omega
    by_cases hb : a + 1 < s.cfg.memSize
    · exact .inl ⟨⟨hm, hb⟩, State.wordTrap_of_ok ⟨hm, hb⟩⟩
    · exact .inr (.inl ⟨⟨hm, by omega⟩, State.wordTrap_of_out ⟨hm, by omega⟩⟩)

theorem State.readWord_of_ok (h : s.WordOk a) : s.readWord a = .ok (s.mem.readWord a) := by
  simp only [State.readWord, State.wordTrap_of_ok h]

theorem State.readWord_of_out (h : s.WordOut a) : s.readWord a = .error (.fatal .memoryBounds (some a)) := by
  simp only [State.readWord, State.wordTrap_of_out h]

theorem State.readWord_of_odd (h : s.cfg.misaligned = .fault) (ho : a % 2 = 1) :
    s.readWord a = .error (.misaligned a) := by
  simp only [State.readWord, State.wordTrap_of_odd h ho]

/-- Every outcome of `MemRead(a, 2)`. -/
theorem State.readWord_cases (s : State) (a : Nat) :
    (s.WordOk a ∧ s.readWord a = .ok (s.mem.readWord a)) ∨
      (s.WordOut a ∧ s.readWord a = .error (.fatal .memoryBounds (some a))) ∨
      (s.cfg.misaligned = .fault ∧ a % 2 = 1 ∧ s.readWord a = .error (.misaligned a)) := by
  rcases s.wordTrap_cases a with ⟨h, -⟩ | ⟨h, -⟩ | ⟨h, ho, -⟩
  · exact .inl ⟨h, State.readWord_of_ok h⟩
  · exact .inr (.inl ⟨h, State.readWord_of_out h⟩)
  · exact .inr (.inr ⟨h, ho, State.readWord_of_odd h ho⟩)

theorem State.writeWord_of_ok (h : s.WordOk a) (v : Word) :
    s.writeWord a v = .ok { s with mem := s.mem.writeWord a v } := by
  simp only [State.writeWord, State.wordTrap_of_ok h]

theorem State.writeWord_of_out (h : s.WordOut a) (v : Word) :
    s.writeWord a v = .error (.fatal .memoryBounds (some a)) := by
  simp only [State.writeWord, State.wordTrap_of_out h]

theorem State.writeWord_of_odd (h : s.cfg.misaligned = .fault) (ho : a % 2 = 1) (v : Word) :
    s.writeWord a v = .error (.misaligned a) := by
  simp only [State.writeWord, State.wordTrap_of_odd h ho]

/-- Every outcome of `MemWrite(a, 2, v)`. -/
theorem State.writeWord_cases (s : State) (a : Nat) (v : Word) :
    (s.WordOk a ∧ s.writeWord a v = .ok { s with mem := s.mem.writeWord a v }) ∨
      (s.WordOut a ∧ s.writeWord a v = .error (.fatal .memoryBounds (some a))) ∨
      (s.cfg.misaligned = .fault ∧ a % 2 = 1 ∧ s.writeWord a v = .error (.misaligned a)) := by
  rcases s.wordTrap_cases a with ⟨h, -⟩ | ⟨h, -⟩ | ⟨h, ho, -⟩
  · exact .inl ⟨h, State.writeWord_of_ok h v⟩
  · exact .inr (.inl ⟨h, State.writeWord_of_out h v⟩)
  · exact .inr (.inr ⟨h, ho, State.writeWord_of_odd h ho v⟩)

@[simp] theorem effectiveAddress_toNat (opd : Operand) : (effectiveAddress opd).toNat = opd.toNat := by
  have := opd.isLt
  simp only [effectiveAddress, BitVec.toNat_setWidth]; omega

/-- A branch writes PC and nothing else (R131, R132). -/
theorem State.branchIf_eq (s : State) (flag : Bool) (opd : Operand) :
    s.branchIf flag opd = { s with pc := if flag = true then effectiveAddress opd else s.pc } := by
  unfold State.branchIf State.setPc; split <;> rfl

/-! ### ALU results under the hardware's wrap -/

theorem State.drawn_of_wrap (h : s.cfg.overflow = .wrap) (x : Int) : s.drawn x = false := by
  simp [State.drawn, h]

theorem State.resultWord_of_wrap (h : s.cfg.overflow = .wrap) (x : Int) : s.resultWord x = smenc x := by
  simp [State.resultWord, State.drawn_of_wrap h]

theorem State.putResult_of_wrap (h : s.cfg.overflow = .wrap) (x : Int) :
    s.putResult x = { s with acc := smenc x } := by
  simp [State.putResult, State.countDraw, State.resultWord_of_wrap h, State.drawn_of_wrap h, State.setAcc]

theorem State.putResultFlags_of_wrap (h : s.cfg.overflow = .wrap) (x : Int) :
    s.putResultFlags x = { s with acc := smenc x, z := flagZ (smenc x), n := flagN (smenc x) } := by
  simp [State.putResultFlags, State.putResult_of_wrap h, State.resultWord_of_wrap h, State.setFlags]

/-! ### The scan of PRS -/

/-- A scan that ends at a zero byte: what it found. -/
theorem Memory.scan_ok {m : Memory} : ∀ {left a : Nat} {bs : List Byte}, m.scan left a = .ok bs →
    bs.length < left ∧ m.read (a + bs.length) = 0x00#8 ∧ ∀ b ∈ bs, b ≠ 0x00#8 := by
  intro left
  induction left with
  | zero => intro a bs h; simp [Memory.scan] at h
  | succ left ih =>
    intro a bs h
    rw [Memory.scan] at h
    split at h
    · cases h; exact ⟨by simp, by simpa using ‹_›, by simp⟩
    · split at h
      · rename_i bs' hs
        cases h
        obtain ⟨h1, h2, h3⟩ := ih hs
        refine ⟨by simpa using h1, ?_, by simpa using ⟨‹_›, h3⟩⟩
        rw [List.length_cons, ← h2]; congr 1; omega
      · cases h

/-- A scan that meets the end of memory: where. -/
theorem Memory.scan_error {m : Memory} : ∀ {left a e : Nat}, m.scan left a = .error e → e = a + left := by
  intro left
  induction left with
  | zero => intro a e h; cases h; rfl
  | succ left ih =>
    intro a e h
    rw [Memory.scan] at h
    split at h
    · cases h
    · split at h
      · cases h
      · rename_i hs; cases h; rw [ih hs]; omega

/-- Every outcome of the string read of PRS from `a`. -/
theorem State.readString_cases (s : State) (a : Nat) :
    (∃ bs, s.readString a = .ok bs ∧ ∀ b ∈ bs, b ≠ 0x00#8) ∨
      s.readString a = .error (.fatal .memoryBounds (some (max s.cfg.memSize a))) := by
  unfold State.readString
  cases h : s.mem.scan (s.cfg.memSize - a) a with
  | ok bs => exact .inl ⟨bs, rfl, (Memory.scan_ok h).2.2⟩
  | error e =>
    right
    have := Memory.scan_error h
    simp only [Except.error.injEq, Trap.fatal.injEq, Option.some.injEq, true_and]
    omega

/-! ### The call stack -/

/-- Every outcome of `push(v)`. -/
theorem State.push_cases (s : State) (v : Word) :
    (s.sp.toNat + 2 ≤ s.cfg.stackTop.toNat ∧ s.WordOk s.sp.toNat ∧
        s.push v = .ok ({ s with mem := s.mem.writeWord s.sp.toNat v, sp := s.sp + 2#16 })) ∨
      (s.cfg.stackTop.toNat < s.sp.toNat + 2 ∧ s.push v = .error (.fatal .stackOverflow (some s.sp.toNat))) ∨
      (s.sp.toNat + 2 ≤ s.cfg.stackTop.toNat ∧ s.WordOut s.sp.toNat ∧
        s.push v = .error (.fatal .memoryBounds (some s.sp.toNat))) ∨
      (s.cfg.misaligned = .fault ∧ s.sp.toNat % 2 = 1 ∧ s.push v = .error (.misaligned s.sp.toNat)) := by
  unfold State.push
  split
  · exact .inr (.inl ⟨‹_›, rfl⟩)
  · have hle : s.sp.toNat + 2 ≤ s.cfg.stackTop.toNat := by omega
    rcases s.writeWord_cases s.sp.toNat v with ⟨h, e⟩ | ⟨h, e⟩ | ⟨h, ho, e⟩
    · exact .inl ⟨hle, h, by rw [e]; rfl⟩
    · exact .inr (.inr (.inl ⟨hle, h, by rw [e]⟩))
    · exact .inr (.inr (.inr ⟨h, ho, by rw [e]⟩))

/-- Every outcome of `pop()`. -/
theorem State.pop_cases (s : State) :
    (s.sp ≠ s.cfg.stackBase ∧ s.WordOk (s.sp - 2#16).toNat ∧
        s.pop = .ok (s.mem.readWord (s.sp - 2#16).toNat, { s with sp := s.sp - 2#16 })) ∨
      (s.sp = s.cfg.stackBase ∧ s.pop = .error (.fatal .stackUnderflow (some s.sp.toNat))) ∨
      (s.sp ≠ s.cfg.stackBase ∧ s.WordOut (s.sp - 2#16).toNat ∧
        s.pop = .error (.fatal .memoryBounds (some (s.sp - 2#16).toNat))) ∨
      (s.cfg.misaligned = .fault ∧ (s.sp - 2#16).toNat % 2 = 1 ∧
        s.pop = .error (.misaligned (s.sp - 2#16).toNat)) := by
  unfold State.pop
  split
  · exact .inr (.inl ⟨‹_›, rfl⟩)
  · rcases s.readWord_cases (s.sp - 2#16).toNat with ⟨h, e⟩ | ⟨h, e⟩ | ⟨h, ho, e⟩
    · exact .inl ⟨‹_›, h, by rw [e]; rfl⟩
    · exact .inr (.inr (.inl ⟨‹_›, h, by rw [e]⟩))
    · exact .inr (.inr (.inr ⟨h, ho, by rw [e]⟩))

/-! ### Traps -/

@[simp] theorem State.trap_fatal (s : State) (k : FatalCondition) (fa : Option Nat) :
    s.trap (.fatal k fa) = .next (s.raise k s.fpc (some s.ir) fa) := rfl

@[simp] theorem State.trap_misaligned (s : State) (a : Nat) :
    s.trap (.misaligned a) = .refused (.misalignedAccess a) := rfl

@[simp] theorem State.fetchTrap_fatal (s : State) (k : FatalCondition) (fa : Option Nat) :
    s.fetchTrap (.fatal k fa) = .next (s.raise k s.pc none fa) := rfl

@[simp] theorem State.fetchTrap_misaligned (s : State) (a : Nat) :
    s.fetchTrap (.misaligned a) = .refused (.misalignedAccess a) := rfl

@[simp] theorem State.latch_fpc (s : State) (w : Word) : (s.latch w).fpc = s.pc := by
  simp [State.fpc, State.latch]

end Sys2Proof.Machine
end

