-- ==== Sys2Proof/Laws/Exec.lean ====
section
/-! SUPPORT. What each instruction and each step can do, said once: if it answers a next state, that state is one of these. -/

namespace Sys2Proof.Machine

variable {s t : State}

/-- The bound stops a word operand: the one stop of LDA, STA, ADD, SUB, MUL and PRT. -/
def State.BoundStop (s : State) (a : Operand) (t : State) : Prop :=
  s.WordOut a.toNat ∧ t = s.raise .memoryBounds s.fpc (some s.ir) (some a.toNat)

/-- An instruction that reads a word operand and goes on with it. -/
theorem State.operandWord_next {a : Operand} {f : Word → State}
    (h : (match s.operandWord a with
      | .ok w => .next (f w)
      | .error e => s.trap e) = (.next t : Host.Outcome State Fault Refusal)) :
    (s.WordOk a.toNat ∧ t = f (s.mem.readWord a.toNat)) ∨ s.BoundStop a t := by
  unfold State.operandWord at h
  rw [effectiveAddress_toNat] at h
  rcases s.readWord_cases a.toNat with ⟨ha, e⟩ | ⟨ha, e⟩ | ⟨-, -, e⟩ <;> rw [e] at h <;> cases h
  · exact .inl ⟨ha, rfl⟩
  · exact .inr ⟨ha, rfl⟩

theorem execLda_next {a : Operand} (h : exec (.lda a) s = .next t) :
    (s.WordOk a.toNat ∧ t = (s.setAcc (s.mem.readWord a.toNat)).setFlags (s.mem.readWord a.toNat)) ∨
      s.BoundStop a t := State.operandWord_next (f := fun w => (s.setAcc w).setFlags w) h

theorem execAdd_next {a : Operand} (h : exec (.add a) s = .next t) :
    (s.WordOk a.toNat ∧ t = s.putResultFlags (addExact s.acc (s.mem.readWord a.toNat))) ∨ s.BoundStop a t :=
  State.operandWord_next (f := fun w => s.putResultFlags (addExact s.acc w)) h

theorem execSub_next {a : Operand} (h : exec (.sub a) s = .next t) :
    (s.WordOk a.toNat ∧ t = s.putResultFlags (subExact s.acc (s.mem.readWord a.toNat))) ∨ s.BoundStop a t :=
  State.operandWord_next (f := fun w => s.putResultFlags (subExact s.acc w)) h

theorem execMul_next {a : Operand} (h : exec (.mul a) s = .next t) :
    (s.WordOk a.toNat ∧ t = s.putResultFlags (mulExact s.acc (s.mem.readWord a.toNat))) ∨ s.BoundStop a t :=
  State.operandWord_next (f := fun w => s.putResultFlags (mulExact s.acc w)) h

theorem execPrt_next {a : Operand} (h : exec (.prt a) s = .next t) :
    (s.WordOk a.toNat ∧ t = s.emit (.num (smdec (s.mem.readWord a.toNat)))) ∨ s.BoundStop a t :=
  State.operandWord_next (f := fun w => s.emit (.num (smdec w))) h

theorem execSta_next {a : Operand} (h : exec (.sta a) s = .next t) :
    (s.WordOk a.toNat ∧ t = { s with mem := s.mem.writeWord a.toNat s.acc }) ∨ s.BoundStop a t := by
  simp only [exec, execSta, effectiveAddress_toNat] at h
  rcases s.writeWord_cases a.toNat s.acc with ⟨ha, e⟩ | ⟨ha, e⟩ | ⟨-, -, e⟩ <;> rw [e] at h <;> cases h
  · exact .inl ⟨ha, rfl⟩
  · exact .inr ⟨ha, rfl⟩

theorem execIac_next (h : exec .iac s = .next t) : t = s.putResult (incExact s.acc) := by cases h; rfl

theorem execJmp_next {a : Operand} (h : exec (.jmp a) s = .next t) : t = s.setPc (effectiveAddress a) := by
  cases h; rfl

theorem execBrz_next {a : Operand} (h : exec (.brz a) s = .next t) : t = s.branchIf s.z a := by cases h; rfl

theorem execBrn_next {a : Operand} (h : exec (.brn a) s = .next t) : t = s.branchIf s.n a := by cases h; rfl

/-- The three ways CAL ends in a next state; the last only where the cursor or the configuration is out of its rules. -/
theorem execCal_next {a : Operand} (h : exec (.cal a) s = .next t) :
    (s.sp.toNat + 2 ≤ s.cfg.stackTop.toNat ∧ s.WordOk s.sp.toNat ∧
        t = { s with mem := s.mem.writeWord s.sp.toNat s.pc, sp := s.sp + 2#16, pc := effectiveAddress a }) ∨
      (s.cfg.stackTop.toNat < s.sp.toNat + 2 ∧
        t = s.raise .stackOverflow s.fpc (some s.ir) (some s.sp.toNat)) ∨
      (s.sp.toNat + 2 ≤ s.cfg.stackTop.toNat ∧ s.WordOut s.sp.toNat ∧
        t = s.raise .memoryBounds s.fpc (some s.ir) (some s.sp.toNat)) := by
  simp only [exec, execCal] at h
  rcases s.push_cases s.pc with ⟨h1, h2, e⟩ | ⟨h1, e⟩ | ⟨h1, h2, e⟩ | ⟨-, -, e⟩ <;> rw [e] at h <;> cases h
  · exact .inl ⟨h1, h2, rfl⟩
  · exact .inr (.inl ⟨h1, rfl⟩)
  · exact .inr (.inr ⟨h1, h2, rfl⟩)

/-- The three ways RET ends in a next state; the last only where the cursor or the configuration is out of its rules. -/
theorem execRet_next (h : exec .ret s = .next t) :
    (s.sp ≠ s.cfg.stackBase ∧ s.WordOk (s.sp - 2#16).toNat ∧
        t = { s with sp := s.sp - 2#16, pc := s.mem.readWord (s.sp - 2#16).toNat }) ∨
      (s.sp = s.cfg.stackBase ∧ t = s.raise .stackUnderflow s.fpc (some s.ir) (some s.sp.toNat)) ∨
      (s.sp ≠ s.cfg.stackBase ∧ s.WordOut (s.sp - 2#16).toNat ∧
        t = s.raise .memoryBounds s.fpc (some s.ir) (some (s.sp - 2#16).toNat)) := by
  simp only [exec, execRet] at h
  rcases s.pop_cases with ⟨h1, h2, e⟩ | ⟨h1, e⟩ | ⟨h1, h2, e⟩ | ⟨-, -, e⟩ <;> rw [e] at h <;> cases h
  · exact .inl ⟨h1, h2, rfl⟩
  · exact .inr (.inl ⟨h1, rfl⟩)
  · exact .inr (.inr ⟨h1, h2, rfl⟩)

theorem execHalt_next {x : Operand} (h : exec (.halt x) s = .next t) : t = s.halt .haltInstr := by cases h; rfl

theorem execEnd_next {x : Operand} (h : exec (.endSentinel x) s = .next t) : t = s.halt .endSentinel := by
  cases h; rfl

theorem execPrc_next {h' : BitVec 4} {c : Byte} (h : exec (.prc h' c) s = .next t) : t = s.emit (.char c) := by
  cases h; rfl

theorem execPrs_next {a : Operand} (h : exec (.prs a) s = .next t) :
    (∃ bs, t = s.emit (.str bs) ∧ ∀ b ∈ bs, b ≠ 0x00#8) ∨
      t = s.raise .memoryBounds s.fpc (some s.ir) (some (max s.cfg.memSize a.toNat)) := by
  simp only [exec, execPrs, effectiveAddress_toNat] at h
  rcases s.readString_cases a.toNat with ⟨bs, e, hb⟩ | e <;> rw [e] at h <;> cases h
  · exact .inl ⟨bs, rfl, hb⟩
  · exact .inr rfl

theorem execIllegalE_next {x : Operand} (h : exec (.illegalE x) s = .next t) :
    t = s.raise .illegalOpcode s.fpc (some s.ir) none := by cases h; rfl

theorem execIllegalF_next {x : Operand} (h : exec (.illegalF x) s = .next t) :
    t = s.raise .illegalOpcode s.fpc (some s.ir) none := by cases h; rfl

/-! ### The step -/

theorem step_of_ok (hr : s.run = .running) (h : s.WordOk s.pc.toNat) :
    step s = exec (decodeWord (s.mem.readWord s.pc.toNat)) (s.latch (s.mem.readWord s.pc.toNat)) := by
  simp only [step, hr, State.fetch, State.readWord_of_ok h]

theorem step_of_out (hr : s.run = .running) (h : s.WordOut s.pc.toNat) :
    step s = .next (s.raise .memoryBounds s.pc none (some s.pc.toNat)) := by
  simp only [step, hr, State.fetch, State.readWord_of_out h, State.fetchTrap_fatal]

theorem step_of_odd (hr : s.run = .running) (h : s.cfg.misaligned = .fault) (ho : s.pc.toNat % 2 = 1) :
    step s = .refused (.misalignedAccess s.pc.toNat) := by
  simp only [step, hr, State.fetch, State.readWord_of_odd h ho, State.fetchTrap_misaligned]

/-- A step that answers a next state: the machine ran, and either the fetch met the bound or the fetched word's
instruction was executed. -/
theorem step_next (h : step s = .next t) :
    s.run = .running ∧
      ((s.WordOut s.pc.toNat ∧ t = s.raise .memoryBounds s.pc none (some s.pc.toNat)) ∨
       (s.WordOk s.pc.toNat ∧
        exec (decodeWord (s.mem.readWord s.pc.toNat)) (s.latch (s.mem.readWord s.pc.toNat)) = .next t)) := by
  cases hr : s.run with
  | stopped => simp [step, hr] at h
  | running =>
    refine ⟨rfl, ?_⟩
    rcases s.readWord_cases s.pc.toNat with ⟨ha, -⟩ | ⟨ha, -⟩ | ⟨hm, ho, -⟩
    · exact .inr ⟨ha, (step_of_ok hr ha).symm.trans h⟩
    · rw [step_of_out hr ha] at h; cases h; exact .inl ⟨ha, rfl⟩
    · rw [step_of_odd hr hm ho] at h; cases h

end Sys2Proof.Machine
end

