-- ==== Sys2Proof/Laws/PerInstr.lean ====
section
/-! SUPPORT. Facts about every instruction as syntax, one lemma per constructor.

Family OpcodeNibble: the top nibble of an instruction's word is the opcode the map R66 gives it. -/

namespace Sys2Proof

/-- The opcode of the map R66. -/
def Instr.opcode : Instr → BitVec 4
  | .endSentinel _ => 0x0#4
  | .lda _ => 0x1#4
  | .sta _ => 0x2#4
  | .add _ => 0x3#4
  | .sub _ => 0x4#4
  | .jmp _ => 0x5#4
  | .cal _ => 0x6#4
  | .mul _ => 0x7#4
  | .iac => 0x8#4
  | .ret => 0x8#4
  | .halt _ => 0x8#4
  | .brz _ => 0x9#4
  | .brn _ => 0xA#4
  | .prt _ => 0xB#4
  | .prc _ _ => 0xC#4
  | .prs _ => 0xD#4
  | .illegalE _ => 0xE#4
  | .illegalF _ => 0xF#4

/-- The word of `i` carries `i`'s opcode in bits 15:12 (R60). -/
def Laws.OpcodeNibble.Statement (i : Instr) : Prop := opcodeField (encode i) = i.opcode

theorem Laws.OpcodeNibble.endSentinel (x : Operand) : Statement (.endSentinel x) := opcodeField_opcodeWord _ _
theorem Laws.OpcodeNibble.lda (a : Operand) : Statement (.lda a) := opcodeField_opcodeWord _ _
theorem Laws.OpcodeNibble.sta (a : Operand) : Statement (.sta a) := opcodeField_opcodeWord _ _
theorem Laws.OpcodeNibble.add (a : Operand) : Statement (.add a) := opcodeField_opcodeWord _ _
theorem Laws.OpcodeNibble.sub (a : Operand) : Statement (.sub a) := opcodeField_opcodeWord _ _
theorem Laws.OpcodeNibble.jmp (a : Operand) : Statement (.jmp a) := opcodeField_opcodeWord _ _
theorem Laws.OpcodeNibble.cal (a : Operand) : Statement (.cal a) := opcodeField_opcodeWord _ _
theorem Laws.OpcodeNibble.mul (a : Operand) : Statement (.mul a) := opcodeField_opcodeWord _ _
theorem Laws.OpcodeNibble.iac : Statement .iac := opcodeField_opcodeWord _ _
theorem Laws.OpcodeNibble.ret : Statement .ret := opcodeField_opcodeWord _ _
theorem Laws.OpcodeNibble.halt (x : Operand) : Statement (.halt x) := opcodeField_opcodeWord _ _
theorem Laws.OpcodeNibble.brz (a : Operand) : Statement (.brz a) := opcodeField_opcodeWord _ _
theorem Laws.OpcodeNibble.brn (a : Operand) : Statement (.brn a) := opcodeField_opcodeWord _ _
theorem Laws.OpcodeNibble.prt (a : Operand) : Statement (.prt a) := opcodeField_opcodeWord _ _
theorem Laws.OpcodeNibble.prc (h : BitVec 4) (c : Byte) : Statement (.prc h c) := opcodeField_opcodeWord _ _
theorem Laws.OpcodeNibble.prs (a : Operand) : Statement (.prs a) := opcodeField_opcodeWord _ _
theorem Laws.OpcodeNibble.illegalE (x : Operand) : Statement (.illegalE x) := opcodeField_opcodeWord _ _
theorem Laws.OpcodeNibble.illegalF (x : Operand) : Statement (.illegalF x) := opcodeField_opcodeWord _ _

end Sys2Proof
end

