-- ==== Sys2Proof/Tests/Slice0.lean ====
section
/-! SUPPORT. The model's own tests, their expected results from the spec's text and vectors (95_test_vectors.md), and for every
statement with hypotheses a witness that meets them. -/

namespace Sys2Proof.Tests

open Sys2Proof.Machine Sys2Proof.Statements

/-! ### Helpers -/

/-- The next state of an outcome, if it is one. -/
def nextOf : Host.Outcome State Fault Refusal → Option State
  | .next t => some t
  | .fault _ => none
  | .refused _ => none

/-- Words stored at addresses of an empty memory. -/
def memOf : List (Nat × Word) → Memory
  | [] => []
  | (a, w) :: rest => (memOf rest).writeWord a w

/-- The reference machine about to fetch at `pc`. -/
def machineAt (pc : Word) (words : List (Nat × Word)) : State := { State.reset with pc := pc, mem := memOf words }

/-- What one step leaves in ACC, Z, N, SP and PC. -/
def regsAfter (s : State) : Option (Word × Bool × Bool × Word × Word) :=
  (nextOf (step s)).map fun t => (t.acc, t.z, t.n, t.sp, t.pc)

/-- The stop record one step leaves, and PC, when it stops the machine. -/
def stopAfter (s : State) : Option (StopRecord × Word) :=
  (nextOf (step s)).bind fun t => if t.run = .stopped then some (t.stop, t.pc) else none

/-- The events one step leaves. -/
def outAfter (s : State) : Option (List Event) := (nextOf (step s)).map fun t => t.out

/-! ### WellFormed refuses each ill-formed term (R65) -/

theorem test_halt_subcode_002_ill_formed : (Instr.halt 0x002#12).illFormed? = some .haltSubCodeIsIac := by decide
theorem test_halt_subcode_005_ill_formed : (Instr.halt 0x005#12).illFormed? = some .haltSubCodeIsRet := by decide

/-! ### Decode: one word per constructor, written bit by bit from R60 and R66 -/

theorem test_decode_end : decodeWord 0b0000_1010_1011_1100#16 = .endSentinel 0xABC#12 := by decide
theorem test_decode_lda : decodeWord 0b0001_0001_0000_0000#16 = .lda 0x100#12 := by decide
theorem test_decode_sta : decodeWord 0b0010_1111_1111_1110#16 = .sta 0xFFE#12 := by decide
theorem test_decode_add : decodeWord 0b0011_0001_0000_0110#16 = .add 0x106#12 := by decide
theorem test_decode_sub : decodeWord 0b0100_0001_0000_0100#16 = .sub 0x104#12 := by decide
theorem test_decode_jmp : decodeWord 0b0101_0010_0000_1100#16 = .jmp 0x20C#12 := by decide
theorem test_decode_cal : decodeWord 0b0110_0010_0110_0000#16 = .cal 0x260#12 := by decide
theorem test_decode_mul : decodeWord 0b0111_0001_0000_0010#16 = .mul 0x102#12 := by decide
theorem test_decode_iac : decodeWord 0b1000_0000_0000_0010#16 = .iac := by decide
theorem test_decode_ret : decodeWord 0b1000_0000_0000_0101#16 = .ret := by decide
theorem test_decode_halt : decodeWord 0b1000_0001_0000_0010#16 = .halt 0x102#12 := by decide
theorem test_decode_brz : decodeWord 0b1001_0010_0011_0000#16 = .brz 0x230#12 := by decide
theorem test_decode_brn : decodeWord 0b1010_0010_0001_1100#16 = .brn 0x21C#12 := by decide
theorem test_decode_prt : decodeWord 0b1011_0001_0000_0100#16 = .prt 0x104#12 := by decide
theorem test_decode_prc : decodeWord 0b1100_0001_0000_1010#16 = .prc 0x1#4 0x0A#8 := by decide
theorem test_decode_prs : decodeWord 0b1101_0001_0010_0000#16 = .prs 0x120#12 := by decide
theorem test_decode_illegalE : decodeWord 0b1110_0001_0010_0011#16 = .illegalE 0x123#12 := by decide
theorem test_decode_illegalF : decodeWord 0b1111_1111_1111_1111#16 = .illegalF 0xFFF#12 := by decide
theorem test_decode_truncated : decode [0x10#8] = .error .truncated := by rfl
theorem test_decode_leaves_the_rest : decode [0x11#8, 0x00#8, 0x2A#8] = .ok (.lda 0x100#12, [0x2A#8]) := by rfl
theorem test_decodeTableWord : decodeTableWord 16 0x1100 = some (.lda 0x100#12) := by decide

/-! ### Codec and flags (95_test_vectors.md 2.1) -/

theorem test_smdec : [0x000A#16, 0x7FFF#16, 0x8000#16, 0x8005#16, 0xFFFF#16].map smdec = [10, 32767, 0, -5, -32767] := by decide
theorem test_smenc : [-25, 32768, -32768, -65536, 40000, -40000].map smenc =
    [0x8019#16, 0x0000#16, 0x8000#16, 0x8000#16, 0x1C40#16, 0x9C40#16] := by decide
theorem test_flags : [0x0000#16, 0x7FFF#16, 0x8000#16, 0x8001#16].map (fun w => (flagZ w, flagN w)) =
    [(true, false), (false, false), (true, false), (false, true)] := by decide

/-! ### Memory: canonical form -/

theorem test_write_zero_removes_the_entry : (memOf [(0x100, 0x8005#16)]).writeWord 0x100 0x0000#16 = [] := by decide
theorem test_overlapping_words : (memOf [(0x101, 0x1234#16), (0x100, 0xAABB#16)]).readWord 0x100 = 0xAA12#16 := by decide

/-! ### One step (95_test_vectors.md 2.3 to 2.8); each machine is at 0x200 unless the vector says otherwise -/

theorem test_lda : regsAfter { machineAt 0x200#16 [(0x200, 0x1100#16), (0x100, 0x8000#16)] with acc := 0x1111#16 } =
    some (0x8000#16, true, false, 0x0000#16, 0x202#16) := by decide
theorem test_lda_odd : regsAfter (machineAt 0x200#16 [(0x200, 0x1101#16), (0x100, 0x8005#16), (0x102, 0x000A#16)]) =
    some (0x0500#16, false, false, 0x0000#16, 0x202#16) := by decide
theorem test_lda_bound : stopAfter (machineAt 0x200#16 [(0x200, 0x1FFF#16)]) =
    some (⟨.fatal .memoryBounds, .fatal, 0x200#16, some 0x1FFF#16, some 0x0FFF⟩, 0x202#16) := by decide
theorem test_sta : (nextOf (step { machineAt 0x200#16 [(0x200, 0x2105#16)] with acc := 0x1234#16, z := true })).map
    (fun t => (t.mem.read 0x105, t.mem.read 0x106, t.z, t.n)) = some (0x12#8, 0x34#8, true, false) := by decide
theorem test_add : regsAfter { machineAt 0x200#16 [(0x200, 0x3106#16), (0x106, 0x8001#16)] with acc := 0xFFFF#16 } =
    some (0x8000#16, true, false, 0x0000#16, 0x202#16) := by decide
theorem test_sub : regsAfter { machineAt 0x200#16 [(0x200, 0x4104#16), (0x104, 0x000B#16)] with acc := 0x000A#16 } =
    some (0x8001#16, false, true, 0x0000#16, 0x202#16) := by decide
theorem test_mul : regsAfter { machineAt 0x200#16 [(0x200, 0x7102#16), (0x102, 0x7FFF#16)] with acc := 0xFFFF#16 } =
    some (0x8001#16, false, true, 0x0000#16, 0x202#16) := by decide
theorem test_iac_wraps_and_keeps_flags :
    regsAfter { machineAt 0x200#16 [(0x200, 0x8002#16)] with acc := 0x7FFF#16, n := true } =
      some (0x0000#16, false, true, 0x0000#16, 0x202#16) := by decide
theorem test_iac_across_zero : regsAfter { machineAt 0x200#16 [(0x200, 0x8002#16)] with acc := 0x8001#16 } =
    some (0x0000#16, false, false, 0x0000#16, 0x202#16) := by decide
theorem test_jmp : (regsAfter (machineAt 0x204#16 [(0x204, 0x520C#16)])).map (·.2.2.2.2) = some 0x20C#16 := by decide
theorem test_brz : (regsAfter { machineAt 0x210#16 [(0x210, 0x9230#16)] with z := true }).map (·.2.2.2.2) = some 0x230#16 ∧
    (regsAfter { machineAt 0x210#16 [(0x210, 0x9230#16)] with n := true }).map (·.2.2.2.2) = some 0x212#16 := by decide
theorem test_brn : (regsAfter { machineAt 0x210#16 [(0x210, 0xA240#16)] with n := true }).map (·.2.2.2.2) = some 0x240#16 ∧
    (regsAfter { machineAt 0x210#16 [(0x210, 0xA240#16)] with z := true }).map (·.2.2.2.2) = some 0x212#16 := by decide
theorem test_cal : (nextOf (step { machineAt 0x20C#16 [(0x20C, 0x6260#16)] with sp := 0x00FC#16 })).map
    (fun t => (t.mem.read 0xFC, t.mem.read 0xFD, t.sp, t.pc)) = some (0x02#8, 0x0E#8, 0x00FE#16, 0x260#16) := by decide
theorem test_cal_overflow : stopAfter { machineAt 0x20C#16 [(0x20C, 0x6260#16)] with sp := 0x00FE#16 } =
    some (⟨.fatal .stackOverflow, .fatal, 0x20C#16, some 0x6260#16, some 0x00FE⟩, 0x20E#16) := by decide
theorem test_ret : regsAfter { machineAt 0x262#16 [(0x262, 0x8005#16), (0x000, 0x020E#16)] with sp := 0x0002#16 } =
    some (0x0000#16, false, false, 0x0000#16, 0x020E#16) := by decide
theorem test_ret_underflow : stopAfter (machineAt 0x200#16 [(0x200, 0x8005#16)]) =
    some (⟨.fatal .stackUnderflow, .fatal, 0x200#16, some 0x8005#16, some 0x0000⟩, 0x202#16) := by decide
theorem test_halt : stopAfter (machineAt 0x210#16 [(0x210, 0x8102#16)]) =
    some (⟨.normal, .haltInstr, 0x210#16, some 0x8102#16, none⟩, 0x212#16) := by decide
theorem test_end : stopAfter (machineAt 0x210#16 [(0x210, 0x0ABC#16)]) =
    some (⟨.normal, .endSentinel, 0x210#16, some 0x0ABC#16, none⟩, 0x212#16) := by decide
theorem test_illegalE : stopAfter (machineAt 0x200#16 [(0x200, 0xE123#16)]) =
    some (⟨.fatal .illegalOpcode, .fatal, 0x200#16, some 0xE123#16, none⟩, 0x202#16) := by decide
theorem test_illegalF : stopAfter (machineAt 0x200#16 [(0x200, 0xFFFF#16)]) =
    some (⟨.fatal .illegalOpcode, .fatal, 0x200#16, some 0xFFFF#16, none⟩, 0x202#16) := by decide
theorem test_prt : outAfter (machineAt 0x200#16 [(0x200, 0xB104#16), (0x104, 0x8019#16)]) = some [.num (-25)] := by decide
theorem test_prc : outAfter (machineAt 0x200#16 [(0x200, 0xC10A#16)]) = some [.char 0x0A#8] := by decide
theorem test_prs : outAfter (machineAt 0x200#16 [(0x200, 0xD301#16), (0x300, 0x4142#16), (0x302, 0x4300#16)]) =
    some [.str [0x42#8, 0x43#8]] := by decide
theorem test_prs_bound : stopAfter (machineAt 0x200#16 [(0x200, 0xDFFE#16), (0xFFE, 0x4142#16)]) =
    some (⟨.fatal .memoryBounds, .fatal, 0x200#16, some 0xDFFE#16, some 0x1000⟩, 0x202#16) := by decide
theorem test_fetch_odd : stopAfter (machineAt 0x0201#16 [(0x201, 0x8000#16)]) =
    some (⟨.normal, .haltInstr, 0x201#16, some 0x8000#16, none⟩, 0x203#16) := by decide
theorem test_fetch_bound : stopAfter (machineAt 0x0FFF#16 []) =
    some (⟨.fatal .memoryBounds, .fatal, 0x0FFF#16, none, some 0x0FFF⟩, 0x0FFF#16) := by decide
/-- R82, D8: with 65536 bytes of memory the advance at 0xFFFE wraps to 0. -/
theorem test_pc_wraps : (regsAfter { machineAt 0xFFFE#16 [(0xFFFE, 0xC05A#16)] with
    cfg := { Config.reference with memSize := 65536 } }).map (·.2.2.2.2) = some 0x0000#16 := by decide
theorem test_reset_runs_a_word : outAfter (State.reset.withFetchWord 16 0xC05A) = some [.char 0x5A#8] := by decide

/-! ### Witnesses: a concrete state and operands that meet the hypotheses of each statement -/

/-- The invariant of a running machine that has sent nothing. -/
theorem inv_of_running {s : State} (h : s.cfg.Valid ∧ s.mem.wf ∧ s.mem.within s.cfg.memSize ∧ s.sp.toNat % 2 = 0 ∧
    s.cfg.stackBase.toNat ≤ s.sp.toNat ∧ s.sp.toNat ≤ s.cfg.stackTop.toNat ∧ ¬(s.z = true ∧ s.n = true) ∧
    s.out = [] ∧ s.run = .running) : s.Inv := by
  obtain ⟨h1, h2, h3, h4, h5, h6, h7, h8, h9⟩ := h
  exact ⟨h1, h2, h3, h4, h5, h6, h7, by simp [h8], by simp [h9]⟩

/-- A machine in a subroutine: one return address pushed. -/
def inCall : State := { machineAt 0x262#16 [(0x262, 0x8005#16), (0x000, 0x020E#16)] with sp := 0x0002#16 }

theorem inCall_inv : inCall.Inv := inv_of_running (by decide)

theorem witness_DecodeEncodeRoundTrip : (Instr.halt 0x000#12).WellFormed ∧ (Instr.halt 0xFFF#12).WellFormed ∧
    (Instr.prc 0xF#4 0xFF#8).WellFormed := by decide
theorem witness_EveryWordIsOneInstruction : (Instr.halt 0xF05#12).WellFormed ∧ encode (.halt 0xF05#12) = 0x8F05#16 := by decide
theorem witness_OpcodeTableDecodes : ("HALT", 0x8000#16, 0xF000#16) ∈ opcodeRows ∧ ("IAC", 0x8002#16, 0xFFFF#16) ∈ opcodeRows ∧
    0x8FFF#16 &&& 0xF000#16 = 0x8000#16 ∧ 0x8FFF#16 ≠ 0x8002#16 ∧ 0x8FFF#16 ≠ 0x8005#16 ∧
    0x8002#16 &&& 0xFFFF#16 = 0x8002#16 := by decide
theorem witness_CodecRoundTrip : (-32767 : Int) ≤ -32767 ∧ (32767 : Int) ≤ 32767 ∧ 0xFFFF#16 ≠ 0x8000#16 := by decide
theorem witness_OverflowWraps : 2 ^ 15 ≤ (32768 : Int).natAbs ∧ 2 ^ 15 ≤ (-32768 : Int).natAbs := by decide
theorem witness_FlagsFromWord : State.reset.cfg.overflow = .wrap := by decide
theorem witness_NegativeZeroActsAsZero : smdec 0x8000#16 = 0 := by decide
theorem witness_WordAccessInBounds : inCall.mem.wf ∧ inCall.WordOk 0x000 ∧ inCall.WordOk 0xFFE ∧ inCall.WordOk 0xFFD := by decide
theorem witness_WordAccessOutOfBounds : inCall.WordOut 0xFFF ∧ inCall.WordOut 0x1000 := by decide
theorem witness_LoadAccumulator : inCall.WordOk 0xFFE ∧ inCall.WordOut 0xFFF := by decide
theorem witness_StoreAccumulator : inCall.mem.wf ∧ inCall.WordOk 0xFFE ∧ inCall.WordOut 0xFFF := by decide
theorem witness_AddAndMultiplyMemory : inCall.cfg.overflow = .wrap ∧ inCall.WordOk 0xFFE ∧ inCall.WordOut 0xFFF := by decide
theorem witness_SubtractMemory : inCall.cfg.overflow = .wrap ∧ inCall.WordOk 0x000 ∧ inCall.WordOut 0xFFF ∧
    (∃ t, exec (.sub 0x000#12) inCall = .next t) ∧
    (smdec inCall.acc - smdec (inCall.mem.readWord 0x000)).natAbs ≤ 32767 := ⟨rfl, by decide, by decide, ⟨_, rfl⟩, by decide⟩
theorem witness_IncrementAccumulator : inCall.cfg.overflow = .wrap := by decide
theorem witness_JumpSetsPc : inCall.run = .running ∧ inCall.WordOut 0xFFF := by decide
theorem witness_CallPushesReturnAddress : inCall.cfg.Valid ∧ inCall.mem.wf ∧ inCall.sp.toNat % 2 = 0 ∧
    inCall.sp.toNat + 2 ≤ inCall.cfg.stackTop.toNat ∧
    ({ inCall with sp := 0x00FC#16 } : State).sp.toNat + 2 ≤ inCall.cfg.stackTop.toNat ∧
    ({ inCall with sp := 0x00FE#16 } : State).sp.toNat % 2 = 0 ∧
    inCall.cfg.stackTop.toNat < ({ inCall with sp := 0x00FE#16 } : State).sp.toNat + 2 := by decide
theorem witness_ReturnPopsAddress : inCall.Inv ∧ inCall.sp ≠ inCall.cfg.stackBase ∧
    ({ inCall with sp := 0x0000#16 } : State).Inv ∧ ({ inCall with sp := 0x0000#16 } : State).sp = inCall.cfg.stackBase :=
  ⟨inCall_inv, by decide, inv_of_running (by decide), rfl⟩
theorem witness_CallThenReturn : inCall.Inv ∧ inCall.run = .running ∧
    ∃ t u : State, exec (.cal 0x300#12) inCall = .next t ∧ t.run = inCall.run ∧ u.cfg = t.cfg ∧ u.sp = t.sp ∧
      u.mem.read inCall.sp.toNat = t.mem.read inCall.sp.toNat ∧
      u.mem.read (inCall.sp.toNat + 1) = t.mem.read (inCall.sp.toNat + 1) :=
  ⟨inCall_inv, rfl, _, _, rfl, rfl, rfl, rfl, rfl, rfl⟩
theorem witness_PrintNumber : inCall.WordOk 0xFFE ∧ inCall.WordOut 0xFFF := by decide
theorem witness_PrintCharacter : (0xC10A#16 : Word).extractLsb' 12 4 = 0xC#4 := by decide
/-- A machine with the bytes of "HI" at 0x120 and zeros after them. -/
def withString : State := { inCall with mem := memOf [(0x120, 0x4849#16)] }
theorem witness_PrintString_found : 0x120 + [0x48#8, 0x49#8].length < withString.cfg.memSize ∧
    withString.mem.read (0x120 + [0x48#8, 0x49#8].length) = 0x00#8 ∧
    (∀ i : Nat, (h : i < [0x48#8, 0x49#8].length) →
      withString.mem.read (0x120 + i) = [0x48#8, 0x49#8][i] ∧ [0x48#8, 0x49#8][i] ≠ 0x00#8) ∧
    withString.mem.read 0xFFF = 0x00#8 := by decide
/-- No zero byte between 0xFFE and the end of memory. -/
theorem witness_PrintString_unterminated : ∀ c : Nat, 0xFFE ≤ c → c < inCall.cfg.memSize →
    (memOf [(0xFFE, 0x4142#16)]).read c ≠ 0x00#8 := by
  intro c h1 h2
  have : c = 0xFFE ∨ c = 0xFFF := by have : inCall.cfg.memSize = 4096 := rfl; omega
  rcases this with rfl | rfl <;> decide
theorem witness_StepExecutesDecodedInstruction : ({ inCall with pc := 0x0FFE#16 } : State).run = .running ∧
    ({ inCall with pc := 0x0FFE#16 } : State).WordOk 0x0FFE := by decide
theorem witness_FetchFaultStops : ({ inCall with pc := 0x0FFF#16 } : State).run = .running ∧
    ({ inCall with pc := 0x0FFF#16 } : State).WordOut 0x0FFF := by decide
theorem witness_StoppedMachineHasNoStep : ({ inCall with run := .stopped } : State).run = .stopped := rfl
theorem witness_PreciseStops_execute : ∃ t, step (machineAt 0x200#16 [(0x200, 0x1FFF#16)]) = .next t ∧ t.StoppedFatally :=
  ⟨_, rfl, rfl, rfl⟩
theorem witness_PreciseStops_fetch : ∃ t, step (machineAt 0x0FFF#16 []) = .next t ∧ t.StoppedFatally :=
  ⟨_, rfl, rfl, rfl⟩
theorem witness_AccAndFlagWriters : ∃ t, exec (.lda 0x000#12) inCall = .next t ∧ t.acc ≠ inCall.acc ∧ t.run = .running ∧
    ∃ u, exec (.lda 0x100#12) inCall = .next u ∧ u.z ≠ inCall.z := ⟨_, rfl, by decide, rfl, _, rfl, by decide⟩
theorem witness_StackCursorWriters : ∃ t, exec (.cal 0x300#12) inCall = .next t ∧ t.sp ≠ inCall.sp := ⟨_, rfl, by decide⟩
theorem witness_ProgramCounterWriters : ∃ t, exec (.jmp 0x300#12) inCall = .next t ∧ t.pc ≠ inCall.pc := ⟨_, rfl, by decide⟩
theorem witness_NonStoringFrame : (∀ a, Instr.iac ≠ .sta a ∧ Instr.iac ≠ .cal a) ∧ ∃ t, exec .iac inCall = .next t :=
  ⟨by simp, _, rfl⟩
theorem witness_StoringFrame : inCall.mem.wf ∧ (∃ t, exec (.sta 0xFFE#12) inCall = .next t) ∧
    ∃ t, exec (.cal 0x300#12) inCall = .next t := ⟨by decide, ⟨_, rfl⟩, _, rfl⟩
theorem witness_OutputOnlyAppends : ∃ t, exec (.prt 0x000#12) inCall = .next t ∧ t.out ≠ inCall.out := ⟨_, rfl, by decide⟩
theorem witness_ControlStateFrame : (∃ t, exec (.halt 0x000#12) inCall = .next t ∧ t.run ≠ inCall.run) ∧
    inCall.cfg.overflow = .wrap := ⟨⟨_, rfl, by decide⟩, rfl⟩
theorem witness_StepKeepsInv : inCall.Inv ∧ ∃ t, step inCall = .next t := ⟨inCall_inv, _, rfl⟩
/-- The reference machine with an empty stack. -/
def emptyStack : State := { inCall with sp := 0x0000#16 }
theorem witness_CallStackIsLifo : emptyStack.Inv ∧ emptyStack.sp = emptyStack.cfg.stackBase ∧
    ∃ t, pushAll [0x0202#16, 0x0212#16] emptyStack = .ok t := ⟨inv_of_running (by decide), rfl, _, rfl⟩
/-- At the boundary: 127 return addresses fill the stack, the next is refused. -/
theorem witness_CallStackIsLifo_full : (∃ t, pushAll (List.replicate 127 0x0202#16) emptyStack = .ok t ∧ t.sp = 0x00FE#16) ∧
    ∃ e, pushAll (List.replicate 128 0x0202#16) emptyStack = .error e := ⟨⟨_, rfl, rfl⟩, _, rfl⟩
/-- A STA at 0x200 with operand `a`. -/
def storing (a : Operand) : State := { machineAt 0x200#16 [(0x200, encode (.sta a))] with acc := 0xC041#16 }
theorem witness_StoreSeenByNextFetch : (storing 0x202#12).Inv ∧ (storing 0x202#12).run = .running ∧
    (storing 0x202#12).WordOk 0x200 ∧ (storing 0x202#12).WordOk 0x202 ∧
    decodeWord ((storing 0x202#12).mem.readWord 0x200) = .sta 0x202#12 ∧ (storing 0x200#12).Inv ∧
    decodeWord ((storing 0x200#12).mem.readWord 0x200) = .sta 0x200#12 :=
  ⟨inv_of_running (by decide), rfl, by decide, by decide, by decide, inv_of_running (by decide), by decide⟩
/-- The machine under `MISALIGNED_POLICY = FAULT`. -/
def strict (pc : Word) : State := { inCall with pc := pc, cfg := { Config.reference with misaligned := .fault } }
theorem witness_UnreadRegistersHaveNoEffect : inCall.run = .running ∧ (∃ t, step inCall = .next t) ∧
    (strict 0x201#16).run = .running ∧ ∃ q, step (strict 0x201#16) = .refused q := ⟨rfl, ⟨_, rfl⟩, rfl, _, rfl⟩
theorem witness_FuelOnlyBoundsARun : ∃ t, runFor 1 State.reset = .next t ∧ t.run = .stopped := ⟨_, rfl, rfl⟩
/-- An image of two regions, with and without a seed. -/
def image (seeds : List (Nat × Int)) : Image := ⟨⟨0x100, [0x0007#16, 0x8005#16]⟩, ⟨0x200, [0x1100#16, 0x8000#16]⟩, seeds, 0x200#16⟩
theorem witness_RunStartMeetsInv : inCall.cfg.Valid ∧ inCall.mem.wf ∧ inCall.mem.within inCall.cfg.memSize ∧
    (image [(0x102, -3)]).data.Fits 4096 ∧ (image [(0x102, -3)]).code.Fits 4096 ∧
    ∀ x ∈ (image [(0x102, -3)]).seeds, x.1 + 1 < 4096 := by decide
/-- Seeds over one DATA word, twice, and outside the regions: the first word of DATA and all of CODE stay. -/
def seeds : List (Nat × Int) := [(0x102, -3), (0x104, 9), (0x102, 5)]
theorem witness_LoadedImageReadsBack : (image seeds).data.Disjoint (image seeds).code ∧
    (∀ p ∈ seeds, CellsApart p.1 0x100) ∧ (∀ p ∈ seeds, CellsApart p.1 0x202) ∧
    seeds = [(0x102, -3)] ++ (0x104, 9) :: [(0x102, 5)] ∧ (∀ p ∈ [((0x102 : Nat), (5 : Int))], CellsApart p.1 0x104) ∧
    (∀ p ∈ seeds, (0x106 : Nat) ≠ p.1 ∧ 0x106 ≠ p.1 + 1) ∧ ∀ p ∈ seeds, (0x0FF : Nat) ≠ p.1 ∧ 0x0FF ≠ p.1 + 1 := by decide
theorem witness_MisalignedOptionRefuses : (strict 0x201#16).cfg.misaligned = .fault ∧ (strict 0x201#16).run = .running ∧
    (strict 0x201#16).pc.toNat % 2 = 1 ∧ (Instr.lda 0x101#12).wordOperand = some 0x101#12 ∧ (0x101#12 : Operand).toNat % 2 = 1 ∧
    ({ strict 0x201#16 with sp := 0x0003#16 } : State).sp.toNat % 2 = 1 := by decide
theorem witness_MisalignedOptionOnlyRefuses :
    ∃ t, step { inCall with cfg := { inCall.cfg with misaligned := .fault } } = .next t := ⟨_, rfl⟩
/-- The machine under `OVERFLOW_POLICY = DRAW`. -/
def drawing (acc : Word) : State := { inCall with acc := acc, cfg := { Config.reference with overflow := .draw } }
theorem witness_OverflowOptionDraws : (drawing 0x7FFF#16).cfg.overflow = .draw ∧ (drawing 0x7FFF#16).WordOk 0x000 ∧
    32768 ≤ (addExact 0x7FFF#16 ((drawing 0x7FFF#16).mem.readWord 0x000)).natAbs ∧
    (subExact 0x7FFF#16 ((drawing 0x7FFF#16).mem.readWord 0x000)).natAbs ≤ 32767 ∧
    32768 ≤ (incExact 0x7FFF#16).natAbs ∧ (incExact 0x7FFE#16).natAbs ≤ 32767 := by decide

end Sys2Proof.Tests
end

section
/-! The sign bit and the magnitude mask of a word in the spec's own spelling (`w[15]`, `w & 0x7FFF`), the flags by the
integer of the word, and with them the obligations of 41_alu_codec.md R90, R91, R94 and R95. -/

namespace Sys2Proof.Machine

/-! ### The two fields of a word, as the spec writes them -/

/-- Bit 15 is the sign (R90). -/
theorem getElem_fifteen_eq_true_iff (w : Word) : w[15] = true ↔ 32768 ≤ w.toNat := by
  rw [← msb_eq_true_iff, BitVec.msb_eq_getLsbD_last]; rfl

/-- Masking with `0x7FFF` leaves the magnitude field (R90). -/
theorem and_mask_toNat (w : Word) : (w &&& 0x7FFF#16).toNat = w.toNat % 32768 :=
  (BitVec.toNat_and w 0x7FFF#16).trans (Nat.and_two_pow_sub_one_eq_mod w.toNat 15)

theorem and_mask_eq_zero_iff (w : Word) : w &&& 0x7FFF#16 = 0#16 ↔ w.toNat % 32768 = 0 := by
  rw [← BitVec.toNat_inj, and_mask_toNat, BitVec.toNat_ofNat, Nat.zero_mod]

/-! ### The codec -/

/-- `smdec` by bit 15 and the masked magnitude, as R90 writes it. -/
theorem smdec_eq_mask (w : Word) :
    smdec w = if w[15] then -((w &&& 0x7FFF#16).toNat : Int) else ((w &&& 0x7FFF#16).toNat : Int) := by
  have hlt := w.isLt
  rw [smdec_eq, and_mask_toNat]
  by_cases hsign : 32768 ≤ w.toNat
  · rw [if_neg (by omega), if_pos ((getElem_fifteen_eq_true_iff w).2 hsign)]; omega
  · rw [if_pos (by omega), if_neg (mt (getElem_fifteen_eq_true_iff w).1 hsign)]; omega

/-- The sign bit of an encoded integer is its sign (R91). -/
theorem smenc_getElem_fifteen (x : Int) : (smenc x)[15] = true ↔ x < 0 := by
  rw [getElem_fifteen_eq_true_iff, smenc_toNat]
  split <;> omega

/-- The magnitude of an encoded integer is its absolute value masked to 15 bits (R91). -/
theorem smenc_and_mask (x : Int) : (smenc x &&& 0x7FFF#16).toNat = x.natAbs &&& 0x7FFF := by
  have hmask : x.natAbs &&& 0x7FFF = x.natAbs % 32768 := Nat.and_two_pow_sub_one_eq_mod x.natAbs 15
  rw [and_mask_toNat, smenc_toNat, hmask]
  split <;> omega

/-! ### The flags -/

theorem flagZ_iff_mask (w : Word) : flagZ w = true ↔ w &&& 0x7FFF#16 = 0#16 := by
  rw [flagZ_eq_true_iff, and_mask_eq_zero_iff]

/-- `N` needs a nonzero magnitude beside the sign bit: `0x8000` is the one word with the sign alone (R94). -/
theorem flagN_iff_mask (w : Word) : flagN w = true ↔ w[15] = true ∧ w &&& 0x7FFF#16 ≠ 0#16 := by
  have hlt := w.isLt
  rw [flagN_eq_true_iff, getElem_fifteen_eq_true_iff, ne_eq, and_mask_eq_zero_iff]
  omega

theorem flagZ_iff_smdec (w : Word) : flagZ w = true ↔ smdec w = 0 := by
  have hlt := w.isLt
  rw [flagZ_eq_true_iff, smdec_eq]
  split <;> omega

theorem flagN_iff_smdec (w : Word) : flagN w = true ↔ smdec w < 0 := by
  rw [flagN_eq_true_iff, smdec_eq]
  split <;> omega

/-! ### The obligations -/

/-- Settles O9: the flags by mask and by integer, and `putResultFlags` under the hardware's wrap. -/
theorem flagsFromWord : Obligations.FlagsFromWord := by
  refine ⟨fun w => ⟨flagZ_iff_mask w, flagN_iff_mask w, flagZ_iff_smdec w, flagN_iff_smdec w⟩, ?_, by decide, by decide⟩
  intro s x hwrap
  rw [State.putResultFlags_of_wrap hwrap]
  exact ⟨rfl, rfl, rfl⟩

/-- Settles O5: the masked form of `smdec`, its bounds, and the two zeros by evaluation. -/
theorem signMagnitudeDecode : Obligations.SignMagnitudeDecode :=
  ⟨fun w => ⟨smdec_eq_mask w, smdec_bounds w⟩, by decide, by decide⟩

/-- Settles O6: the two fields of an encoded integer, and zero by evaluation. -/
theorem signMagnitudeEncode : Obligations.SignMagnitudeEncode :=
  ⟨fun x => ⟨smenc_getElem_fifteen x, smenc_and_mask x⟩, by decide⟩

/-- Settles O10: the integer of a word would be both zero and negative. -/
theorem flagsMutuallyExclusive : Obligations.FlagsMutuallyExclusive := by
  rintro w ⟨hz, hn⟩
  exact ((flagN_iff_smdec w).1 hn).ne ((flagZ_iff_smdec w).1 hz)

end Sys2Proof.Machine
end

section
/-! What an address operand reads and stores at the two outcomes of the word check (R46), the opcode map as a left
inverse of the encoder, and with them the obligations of 42_load_store_arith.md R110, R111, R112, R114 and R115. -/

namespace Sys2Proof

/-- The sub-code of opcode 0x8 is the operand of the instruction's word (R65). -/
@[simp] theorem encode_decodeSubCode (opd : Operand) : encode (decodeSubCode opd) = 0x8#4 ++ opd := by
  unfold decodeSubCode
  split
  · subst opd; rfl
  · split
    · subst opd; rfl
    · rfl

/-- The opcode map loses no bit of the word: the encoder gives opcode and operand back (R66, R71). -/
theorem encode_decodeFields (op : BitVec 4) (opd : Operand) : encode (decodeFields op opd) = op ++ opd := by
  have hop : op = BitVec.ofNat 4 op.toNat := by simp
  have hlt : op.toNat < 16 := op.isLt
  rw [hop]
  generalize op.toNat = n at hlt
  match n, hlt with
  | 0x8, _ => exact encode_decodeSubCode opd
  | 0xC, _ => exact congrArg (0xC#4 ++ ·) (prcOperand_fields opd)
  | 0x0, _ | 0x1, _ | 0x2, _ | 0x3, _ | 0x4, _ | 0x5, _ | 0x6, _ | 0x7, _ => rfl
  | 0x9, _ | 0xA, _ | 0xB, _ | 0xD, _ | 0xE, _ | 0xF, _ => rfl
  | _ + 16, hge => omega

/-- A word is the encoding of what it decodes to (R71). -/
@[simp] theorem encode_decodeWord (w : Word) : encode (decodeWord w) = w := by
  rw [decodeWord, encode_decodeFields, opcodeWord_fields]

/-- IAC has one word, since its encoding carries no operand (R65). -/
theorem decodeWord_eq_iac_iff (w : Word) : decodeWord w = .iac ↔ w = 0x8002#16 := by
  constructor
  · intro hdec
    calc w = encode (decodeWord w) := (encode_decodeWord w).symm
      _ = encode .iac := by rw [hdec]
      _ = 0x8002#16 := by decide
  · rintro rfl
    decide

end Sys2Proof

namespace Sys2Proof.Machine

open Sys2Proof.Statements

variable {s : State} {a : Operand}

/-! ### The word operand -/

theorem State.operandWord_of_ok (h : s.WordOk a.toNat) : s.operandWord a = .ok (s.mem.readWord a.toNat) := by
  rw [State.operandWord, effectiveAddress_toNat, State.readWord_of_ok h]

theorem State.operandWord_of_out (h : s.WordOut a.toNat) :
    s.operandWord a = .error (.fatal .memoryBounds (some a.toNat)) := by
  rw [State.operandWord, effectiveAddress_toNat, State.readWord_of_out h]

/-- ADD, SUB and MUL in bounds, under the hardware's wrap (R92, R112 to R114). -/
theorem State.combine_of_ok (hwrap : s.cfg.overflow = .wrap) (h : s.WordOk a.toNat) (f : Word → Word → Int) :
    s.combine a f = .next (withAccAndFlags s (smenc (f s.acc (s.mem.readWord a.toNat)))) := by
  simp only [State.combine, State.operandWord_of_ok h, State.putResultFlags_of_wrap hwrap, withAccAndFlags]

/-- ADD, SUB and MUL out of bounds: nothing is combined (R171). -/
theorem State.combine_of_out (h : s.WordOut a.toNat) (f : Word → Word → Int) :
    s.combine a f = .next (stoppedAtBound s a.toNat) := by
  simp only [State.combine, State.operandWord_of_out h, State.trap_fatal, stoppedAtBound]

/-! ### Load and store -/

theorem execLda_of_ok (h : s.WordOk a.toNat) :
    exec (.lda a) s = .next (withAccAndFlags s (s.mem.readWord a.toNat)) := by
  simp only [exec, execLda, State.operandWord_of_ok h, State.setAcc, State.setFlags, withAccAndFlags]

theorem execLda_of_out (h : s.WordOut a.toNat) : exec (.lda a) s = .next (stoppedAtBound s a.toNat) := by
  simp only [exec, execLda, State.operandWord_of_out h, State.trap_fatal, stoppedAtBound]

theorem execSta_of_ok (h : s.WordOk a.toNat) :
    exec (.sta a) s = .next { s with mem := s.mem.writeWord a.toNat s.acc } := by
  simp only [exec, execSta, effectiveAddress_toNat, State.writeWord_of_ok h]

theorem execSta_of_out (h : s.WordOut a.toNat) : exec (.sta a) s = .next (stoppedAtBound s a.toNat) := by
  simp only [exec, execSta, effectiveAddress_toNat, State.writeWord_of_out h, State.trap_fatal, stoppedAtBound]

/-! ### The obligations -/

/-- Settles O16: the memory found is the one the word write leaves, read byte by byte. -/
theorem storeAccumulator : Obligations.StoreAccumulator := by
  intro a s hwf
  refine ⟨decodeWord_opcodeWord 0x2#4 a, fun hok => ?_, execSta_of_out⟩
  have hread := Memory.read_writeWord hwf a.toNat s.acc
  refine ⟨s.mem.writeWord a.toNat s.acc, execSta_of_ok hok, Memory.wf_writeWord hwf _ _, ?_, ?_, fun c hhi hlo => ?_⟩
  · rw [hread, if_pos rfl, hiByte]
  · rw [hread, if_neg (by omega), if_pos rfl, loByte]
  · rw [hread, if_neg hhi, if_neg hlo]

/-- Settles O19: IAC's word is its encoding, and under the hardware's wrap its result is written to ACC alone. -/
theorem incrementAccumulator : Obligations.IncrementAccumulator :=
  ⟨decodeWord_eq_iac_iff, fun s hwrap => congrArg Host.Outcome.next (State.putResult_of_wrap hwrap (incExact s.acc))⟩

/-- Settles O15: the two outcomes of the operand's word check. -/
theorem loadAccumulator : Obligations.LoadAccumulator := fun a _ =>
  ⟨decodeWord_opcodeWord 0x1#4 a, execLda_of_ok, execLda_of_out⟩

/-- Settles O17: ADD and MUL are the one `combine`, with the exact sum and the exact product. -/
theorem addAndMultiplyMemory : Obligations.AddAndMultiplyMemory := fun a _ hwrap =>
  ⟨⟨decodeWord_opcodeWord 0x3#4 a, decodeWord_opcodeWord 0x7#4 a⟩,
    fun hok => ⟨State.combine_of_ok hwrap hok addExact, State.combine_of_ok hwrap hok mulExact⟩,
    fun hout => ⟨State.combine_of_out hout addExact, State.combine_of_out hout mulExact⟩⟩

end Sys2Proof.Machine
end

section
/-! The one word of an instruction with a fixed encoding, a jump target that the next fetch cannot read, the pop of a return
address under the invariant, and with them the obligations of 43_control.md R130, R131, R132 and R136. -/

namespace Sys2Proof

/-- An instruction has no word but its encoding (R71). -/
theorem eq_encode_of_decodeWord_eq {w : Word} {i : Instr} (hdec : decodeWord w = i) : w = encode i :=
  hdec ▸ (encode_decodeWord w).symm

/-- RET has one word, since its encoding carries no operand (R65). -/
theorem decodeWord_eq_ret_iff (w : Word) : decodeWord w = .ret ↔ w = 0x8005#16 := by
  constructor
  · exact eq_encode_of_decodeWord_eq
  · rintro rfl
    decide

end Sys2Proof

namespace Sys2Proof.Machine

variable {s : State}

/-! ### Jump and branch -/

/-- A target whose word is out of bounds stops the fetch that finds it in PC (R81, R130). -/
theorem step_of_target_out {target : Operand} (hpc : s.pc = effectiveAddress target) (hrun : s.run = .running)
    (hout : s.WordOut target.toNat) :
    step s = .next (s.raise .memoryBounds (effectiveAddress target) none (some target.toNat)) := by
  rw [← effectiveAddress_toNat, ← hpc] at hout ⊢
  exact step_of_out hrun hout

theorem execBrz_eq (target : Operand) :
    exec (.brz target) s = .next { s with pc := if s.z = true then effectiveAddress target else s.pc } :=
  congrArg Host.Outcome.next (s.branchIf_eq s.z target)

theorem execBrn_eq (target : Operand) :
    exec (.brn target) s = .next { s with pc := if s.n = true then effectiveAddress target else s.pc } :=
  congrArg Host.Outcome.next (s.branchIf_eq s.n target)

/-! ### The slot below the cursor -/

/-- The cursor and the region's bottom are even, so a stack that is not empty holds a whole slot (R29). -/
theorem State.Inv.two_le_sp (hinv : s.Inv) (hne : s.sp ≠ s.cfg.stackBase) : 2 ≤ s.sp.toNat := by
  have hlow := hinv.sp_low
  have heven := hinv.sp_even
  have hne' : s.sp.toNat ≠ s.cfg.stackBase.toNat := mt BitVec.eq_of_toNat_eq hne
  omega

theorem State.Inv.sp_sub_two_toNat (hinv : s.Inv) (hne : s.sp ≠ s.cfg.stackBase) :
    (s.sp - 2#16).toNat = s.sp.toNat - 2 :=
  BitVec.toNat_sub_of_le (BitVec.le_def.2 (hinv.two_le_sp hne))

/-- The slot that `pop` reads is inside memory and at an even address (R5, R29). -/
theorem State.Inv.wordOk_top_slot (hinv : s.Inv) : s.WordOk (s.sp.toNat - 2) := by
  obtain ⟨-, -, -, htop, -⟩ := hinv.cfg_valid
  have hhigh := hinv.sp_high
  have heven := hinv.sp_even
  exact ⟨.inr (by omega), by omega⟩

/-! ### Pop and return -/

theorem State.pop_of_nonempty (hne : s.sp ≠ s.cfg.stackBase) (hok : s.WordOk (s.sp - 2#16).toNat) :
    s.pop = .ok (s.mem.readWord (s.sp - 2#16).toNat, s.setSp (s.sp - 2#16)) := by
  simp only [State.pop, if_neg hne, State.readWord_of_ok hok]

theorem State.pop_of_empty (hempty : s.sp = s.cfg.stackBase) :
    s.pop = .error (.fatal .stackUnderflow (some s.sp.toNat)) := if_pos hempty

theorem execRet_of_nonempty (hne : s.sp ≠ s.cfg.stackBase) (hok : s.WordOk (s.sp - 2#16).toNat) :
    exec .ret s = .next { s with pc := s.mem.readWord (s.sp - 2#16).toNat, sp := s.sp - 2#16 } := by
  simp only [exec, execRet, State.pop_of_nonempty hne hok, State.setPc, State.setSp]

theorem execRet_of_empty (hempty : s.sp = s.cfg.stackBase) :
    exec .ret s = .next (s.raise .stackUnderflow s.fpc (some s.ir) (some s.sp.toNat)) := by
  simp only [exec, execRet, State.pop_of_empty hempty, State.trap_fatal]

/-! ### The obligations -/

/-- Settles O23: RET's word is its encoding, and the invariant puts the slot below a stack that is not empty in
bounds. -/
theorem returnPopsAddress : Obligations.ReturnPopsAddress := by
  refine ⟨decodeWord_eq_ret_iff, fun s hinv => ⟨fun hne => ?_, execRet_of_empty⟩⟩
  have hslot : (s.sp - 2#16).toNat = s.sp.toNat - 2 := hinv.sp_sub_two_toNat hne
  have hret := execRet_of_nonempty hne (hslot ▸ hinv.wordOk_top_slot)
  rwa [hslot] at hret

/-- Settles O20: JMP writes PC alone, and the fetch from there meets the bound. -/
theorem jumpSetsPc : Obligations.JumpSetsPc := fun a s =>
  ⟨decodeWord_opcodeWord 0x5#4 a, rfl, step_of_target_out (s := { s with pc := effectiveAddress a }) rfl⟩

/-- Settles O21: both branches are the one `branchIf`, on Z and on N. -/
theorem branchesFollowFlags : Obligations.BranchesFollowFlags := fun a _ =>
  ⟨⟨decodeWord_opcodeWord 0x9#4 a, decodeWord_opcodeWord 0xA#4 a⟩, execBrz_eq a, execBrn_eq a⟩

end Sys2Proof.Machine
end

section
/-! What PRT does at the two outcomes of its word check, the word of opcode 0xC as PRC of its low byte, and with them the
obligations of 44_output.md R151 and R152. -/

namespace Sys2Proof

/-- The literal of PRC, read from the operand, is the low byte of the whole word (R60, R64). -/
theorem operandField_low (w : Word) : (operandField w).extractLsb' 0 8 = w.extractLsb' 0 8 :=
  BitVec.extractLsb'_extractLsb'_of_le (by decide)

/-- Every word of opcode 0xC is PRC of its low byte; the four bits above that byte are kept and not read (R64, R66). -/
theorem decodeWord_of_opcode_prc {w : Word} (hop : opcodeField w = 0xC#4) :
    decodeWord w = .prc ((operandField w).extractLsb' 8 4) (w.extractLsb' 0 8) := by
  calc decodeWord w = decodeFields 0xC#4 (operandField w) := by rw [decodeWord, hop]
    _ = .prc ((operandField w).extractLsb' 8 4) ((operandField w).extractLsb' 0 8) := rfl
    _ = .prc ((operandField w).extractLsb' 8 4) (w.extractLsb' 0 8) := by rw [operandField_low]

end Sys2Proof

namespace Sys2Proof.Machine

open Sys2Proof.Statements

variable {s : State} {a : Operand}

theorem execPrt_of_ok (h : s.WordOk a.toNat) :
    exec (.prt a) s = .next { s with out := s.out ++ [.num (smdec (s.mem.readWord a.toNat))] } := by
  simp only [exec, execPrt, State.operandWord_of_ok h, State.emit]

/-- Out of bounds, PRT sends nothing (R150, R171). -/
theorem execPrt_of_out (h : s.WordOut a.toNat) : exec (.prt a) s = .next (stoppedAtBound s a.toNat) := by
  simp only [exec, execPrt, State.operandWord_of_out h, State.trap_fatal, stoppedAtBound]

/-- PRC sends its literal and writes nothing else, whatever the ignored bits (R152). -/
theorem execPrc_eq (ignored : BitVec 4) (code : Byte) :
    exec (.prc ignored code) s = .next { s with out := s.out ++ [.char code] } := rfl

/-- Settles O28: the two outcomes of the operand's word check. -/
theorem printNumber : Obligations.PrintNumber := fun a _ =>
  ⟨decodeWord_opcodeWord 0xB#4 a, execPrt_of_ok, execPrt_of_out⟩

/-- Settles O29: a word of opcode 0xC is PRC of its low byte, and PRC drops the other four bits. -/
theorem printCharacter : Obligations.PrintCharacter := by
  intro w s hop
  rw [decodeWord_of_opcode_prc hop, execPrc_eq]

end Sys2Proof.Machine
end

section
/-! The decoder as a left inverse of the encoder, and the opcode field of a masked word, with the obligations of
30_encoding.md on the whole instruction set. -/

namespace Sys2Proof

/-- A sub-code that selects neither IAC nor RET is HALT's (R65). -/
theorem decodeSubCode_of_ne {x : Operand} (hiac : x ≠ 0x002#12) (hret : x ≠ 0x005#12) : decodeSubCode x = .halt x := by
  rw [decodeSubCode, if_neg hiac, if_neg hret]

/-- A well-formed instruction is what its word decodes to (R71). -/
theorem decodeWord_encode {i : Instr} (hwf : i.WellFormed) : decodeWord (encode i) = i := by
  cases i with
  | halt x =>
    obtain ⟨hiac, hret⟩ := (Instr.wellFormed_halt x).1 hwf
    exact (decodeWord_opcodeWord 0x8#4 x).trans (decodeSubCode_of_ne hiac hret)
  | prc high code =>
    calc decodeWord (encode (.prc high code)) = decodeFields 0xC#4 (high ++ code) := decodeWord_opcodeWord 0xC#4 _
      _ = .prc high code := congrArg₂ Instr.prc (prcOperand_high high code) (prcOperand_low high code)
  | _ => exact decodeWord_opcodeWord _ _

theorem decodeSubCode_wellFormed (x : Operand) : (decodeSubCode x).WellFormed := by
  unfold decodeSubCode
  split
  · rfl
  · split
    · rfl
    · exact (Instr.wellFormed_halt x).2 ⟨‹_›, ‹_›⟩

/-- The opcode map gives well-formed instructions: HALT is its only arm with a check to pass (R65). -/
theorem decodeFields_wellFormed (op : BitVec 4) (opd : Operand) : (decodeFields op opd).WellFormed := by
  unfold decodeFields
  split
  case h_9 => exact decodeSubCode_wellFormed opd
  all_goals rfl

/-- Masking with `0xF000` keeps the opcode field (R66). -/
theorem opcodeField_and_mask (w : Word) : opcodeField (w &&& 0xF000#16) = opcodeField w := by
  have hmask : (0xF000#16 : Word).extractLsb' 12 4 = BitVec.allOnes 4 := by decide
  rw [opcodeField, BitVec.extractLsb'_and, hmask, BitVec.and_allOnes, opcodeField]

/-- A word that matches a row of the opcode table with mask `0xF000` is decoded by that row's opcode. -/
theorem decodeWord_of_masked {w row : Word} (hrow : w &&& 0xF000#16 = row) :
    decodeWord w = decodeFields (opcodeField row) (operandField w) := by
  rw [decodeWord, ← hrow, opcodeField_and_mask]

/-- The same for the mnemonic, where the row's opcode has one for all its operands. -/
theorem mnemonic_of_masked {row : Word} {name : String} {P : Word → Prop}
    (hname : ∀ opd, (decodeFields (opcodeField row) opd).mnemonic = name) (w : Word) (hrow : w &&& 0xF000#16 = row)
    (_ : P w) : (decodeWord w).mnemonic = name := by
  rw [decodeWord_of_masked hrow, hname]

/-- Within opcode 0x8, a word that is neither IAC's nor RET's is a HALT (R65). -/
theorem decodeWord_of_haltRow {w : Word} (hrow : w &&& 0xF000#16 = 0x8000#16) (hiac : w ≠ 0x8002#16)
    (hret : w ≠ 0x8005#16) : decodeWord w = .halt (operandField w) := by
  have hdec : decodeWord w = decodeSubCode (operandField w) := decodeWord_of_masked hrow
  have hword : (0x8#4 ++ operandField w : Word) = w := by
    rw [← encode_decodeSubCode, ← hdec, encode_decodeWord]
  rw [hdec]
  refine decodeSubCode_of_ne (fun hsub => hiac ?_) fun hsub => hret ?_
  · rw [← hword, hsub]; rfl
  · rw [← hword, hsub]; rfl

/-! ### The obligations -/

/-- Settles O1: the two bytes are those of the instruction's word, and the decoder is a left inverse of the encoder. -/
theorem decodeEncodeRoundTrip : Obligations.DecodeEncodeRoundTrip := by
  intro i rest hwf
  calc decode (encodeBytes i ++ rest)
      = .ok (decodeWord (wordOfBytes (hiByte (encode i)) (loByte (encode i))), rest) := rfl
    _ = .ok (i, rest) := by rw [wordOfBytes_hiByte_loByte, decodeWord_encode hwf]

/-- Settles O2: decoder and encoder are inverse to each other on words and well-formed instructions. -/
theorem everyWordIsOneInstruction : Obligations.EveryWordIsOneInstruction := by
  refine fun w => ⟨decodeFields_wellFormed _ _, encode_decodeWord w, ?_⟩
  rintro i hwf rfl
  exact (decodeWord_encode hwf).symm

/-- Settles O4, row by row: each opcode selects its arm of the opcode map; IAC and RET have one word each, and HALT has the
rest of opcode 0x8. -/
theorem opcodeTableDecodes : Obligations.OpcodeTableDecodes := by
  have hfull : ∀ v : Word, v &&& 0xFFFF#16 = v := fun v => BitVec.and_allOnes
  simp only [Obligations.OpcodeTableDecodes, Statements.opcodeRows, List.cons_append, List.nil_append, List.forall_mem_cons]
  refine ⟨mnemonic_of_masked fun _ => rfl, mnemonic_of_masked fun _ => rfl, mnemonic_of_masked fun _ => rfl,
    mnemonic_of_masked fun _ => rfl, mnemonic_of_masked fun _ => rfl, mnemonic_of_masked fun _ => rfl,
    mnemonic_of_masked fun _ => rfl, mnemonic_of_masked fun _ => rfl, ?iacRow, ?retRow, ?haltRow,
    mnemonic_of_masked fun _ => rfl, mnemonic_of_masked fun _ => rfl, mnemonic_of_masked fun _ => rfl,
    mnemonic_of_masked fun _ => rfl, mnemonic_of_masked fun _ => rfl, mnemonic_of_masked fun _ => rfl,
    mnemonic_of_masked fun _ => rfl, by simp⟩
  case iacRow => exact fun w hw _ => congrArg Instr.mnemonic ((decodeWord_eq_iac_iff w).2 ((hfull w).symm.trans hw))
  case retRow => exact fun w hw _ => congrArg Instr.mnemonic ((decodeWord_eq_ret_iff w).2 ((hfull w).symm.trans hw))
  case haltRow =>
    intro w hw hhalt
    obtain ⟨hiac, hret⟩ := hhalt trivial
    exact congrArg Instr.mnemonic (decodeWord_of_haltRow hw hiac hret)

/-- Settles O3: the decoder run on each word. -/
theorem decodeSampleWords : Obligations.DecodeSampleWords := by
  refine ⟨?_, ?_, ?_, ?_, ?_, ?_, ?_, ?_, ?_, ?_, ?_, ?_, ?_, ?_, ?_⟩ <;> decide

end Sys2Proof
end

section
/-! What the execute stage can do over all instructions, said once: an `Effect` per way an instruction can end in a next
state. The frames of 10_state.md and the precise stop of 60_exceptions.md R177 are read off it. -/

namespace Sys2Proof.Machine

variable {s t : State} {i : Instr} {a : Operand}

/-- `i` combines ACC with the word at `a` by the exact operation `f` (R112 to R114). -/
inductive AluOp : Instr → Operand → (Word → Word → Int) → Prop
  | add (a : Operand) : AluOp (.add a) a addExact
  | sub (a : Operand) : AluOp (.sub a) a subExact
  | mul (a : Operand) : AluOp (.mul a) a mulExact

/-- `i` goes to `a` if `flag` holds, and on otherwise (R130 to R132). -/
inductive State.BranchesOn (s : State) : Instr → Bool → Operand → Prop
  | jmp (a : Operand) : s.BranchesOn (.jmp a) true a
  | brz (a : Operand) : s.BranchesOn (.brz a) s.z a
  | brn (a : Operand) : s.BranchesOn (.brn a) s.n a

/-- `i` sends the event `e` (R151 to R153). -/
inductive State.Sends (s : State) : Instr → Event → Prop
  | num (a : Operand) (ok : s.WordOk a.toNat) : s.Sends (.prt a) (.num (smdec (s.mem.readWord a.toNat)))
  | char (ignored : BitVec 4) (code : Byte) : s.Sends (.prc ignored code) (.char code)
  | str (a : Operand) (bs : List Byte) (found : s.readString a.toNat = .ok bs) (nonzero : ∀ b ∈ bs, b ≠ 0x00#8) :
      s.Sends (.prs a) (.str bs)

/-- `i` is a normal stop with the cause `c` (R138, R139). -/
inductive Halts : Instr → StopCause → Prop
  | halt (x : Operand) : Halts (.halt x) .haltInstr
  | endSentinel (x : Operand) : Halts (.endSentinel x) .endSentinel

/-- `i` raises the condition `k` with the fault address `fa` (R171 to R174). The bound stops a stack slot only where the
cursor or the configuration is out of its rules. -/
inductive State.Raises (s : State) : Instr → FatalCondition → Option Nat → Prop
  | wordBound {i : Instr} {a : Operand} (operand : i.wordOperand = some a) (out : s.WordOut a.toNat) :
      s.Raises i .memoryBounds (some a.toNat)
  | scanBound (a : Operand)
      (endless : s.readString a.toNat = .error (.fatal .memoryBounds (some (max s.cfg.memSize a.toNat)))) :
      s.Raises (.prs a) .memoryBounds (some (max s.cfg.memSize a.toNat))
  | overflow (a : Operand) (full : s.cfg.stackTop.toNat < s.sp.toNat + 2) :
      s.Raises (.cal a) .stackOverflow (some s.sp.toNat)
  | pushBound (a : Operand) (room : s.sp.toNat + 2 ≤ s.cfg.stackTop.toNat) (out : s.WordOut s.sp.toNat) :
      s.Raises (.cal a) .memoryBounds (some s.sp.toNat)
  | underflow (empty : s.sp = s.cfg.stackBase) : s.Raises .ret .stackUnderflow (some s.sp.toNat)
  | popBound (nonempty : s.sp ≠ s.cfg.stackBase) (out : s.WordOut (s.sp - 2#16).toNat) :
      s.Raises .ret .memoryBounds (some (s.sp - 2#16).toNat)
  | illegalE (x : Operand) : s.Raises (.illegalE x) .illegalOpcode none
  | illegalF (x : Operand) : s.Raises (.illegalF x) .illegalOpcode none

/-- The ways `i`, executed in `s`, can end in a next state. -/
inductive Effect (s : State) : Instr → State → Prop
  | load (a : Operand) (ok : s.WordOk a.toNat) :
      Effect s (.lda a) ((s.setAcc (s.mem.readWord a.toNat)).setFlags (s.mem.readWord a.toNat))
  | store (a : Operand) (ok : s.WordOk a.toNat) : Effect s (.sta a) { s with mem := s.mem.writeWord a.toNat s.acc }
  | arith {i : Instr} {a : Operand} {f : Word → Word → Int} (op : AluOp i a f) (ok : s.WordOk a.toNat) :
      Effect s i (s.putResultFlags (f s.acc (s.mem.readWord a.toNat)))
  | increment : Effect s .iac (s.putResult (incExact s.acc))
  | branch {i : Instr} {flag : Bool} {a : Operand} (br : s.BranchesOn i flag a) : Effect s i (s.branchIf flag a)
  | call (a : Operand) (room : s.sp.toNat + 2 ≤ s.cfg.stackTop.toNat) (ok : s.WordOk s.sp.toNat) :
      Effect s (.cal a) { s with mem := s.mem.writeWord s.sp.toNat s.pc, sp := s.sp + 2#16, pc := effectiveAddress a }
  | ret (nonempty : s.sp ≠ s.cfg.stackBase) (ok : s.WordOk (s.sp - 2#16).toNat) :
      Effect s .ret { s with sp := s.sp - 2#16, pc := s.mem.readWord (s.sp - 2#16).toNat }
  | send {i : Instr} {e : Event} (sent : s.Sends i e) : Effect s i (s.emit e)
  | halt {i : Instr} {c : StopCause} (halted : Halts i c) : Effect s i (s.halt c)
  | raise {i : Instr} {k : FatalCondition} {fa : Option Nat} (raised : s.Raises i k fa) :
      Effect s i (s.raise k s.fpc (some s.ir) fa)

/-! ### Execute has one of these effects -/

/-- An instruction with a word operand has its own effect or meets the bound. -/
theorem Effect.of_wordOperand {P : Prop} {u : State} (hop : i.wordOperand = some a) (hok : P → Effect s i u)
    (h : (P ∧ t = u) ∨ s.BoundStop a t) : Effect s i t := by
  rcases h with ⟨ok, rfl⟩ | ⟨out, rfl⟩
  · exact hok ok
  · exact .raise (.wordBound hop out)

theorem execPrs_effect (h : exec (.prs a) s = .next t) : Effect s (.prs a) t := by
  simp only [exec, execPrs, effectiveAddress_toNat] at h
  rcases s.readString_cases a.toNat with ⟨bs, e, hbs⟩ | e <;> rw [e] at h <;> cases h
  · exact .send (.str a bs e hbs)
  · exact .raise (.scanBound a e)

theorem execCal_effect (h : exec (.cal a) s = .next t) : Effect s (.cal a) t := by
  rcases execCal_next h with ⟨room, ok, rfl⟩ | ⟨full, rfl⟩ | ⟨room, out, rfl⟩
  · exact .call a room ok
  · exact .raise (.overflow a full)
  · exact .raise (.pushBound a room out)

theorem execRet_effect (h : exec .ret s = .next t) : Effect s .ret t := by
  rcases execRet_next h with ⟨nonempty, ok, rfl⟩ | ⟨empty, rfl⟩ | ⟨nonempty, out, rfl⟩
  · exact .ret nonempty ok
  · exact .raise (.underflow empty)
  · exact .raise (.popBound nonempty out)

/-- Every next state of the execute stage is one of the effects. -/
theorem exec_effect (h : exec i s = .next t) : Effect s i t := by
  cases i with
  | lda a => exact .of_wordOperand rfl (.load a) (execLda_next h)
  | sta a => exact .of_wordOperand rfl (.store a) (execSta_next h)
  | add a => exact .of_wordOperand rfl (.arith (.add a)) (execAdd_next h)
  | sub a => exact .of_wordOperand rfl (.arith (.sub a)) (execSub_next h)
  | mul a => exact .of_wordOperand rfl (.arith (.mul a)) (execMul_next h)
  | prt a => exact .of_wordOperand rfl (fun ok => .send (.num a ok)) (execPrt_next h)
  | prs a => exact execPrs_effect h
  | cal a => exact execCal_effect h
  | ret => exact execRet_effect h
  | iac => cases h; exact .increment
  | jmp a => cases h; exact .branch (.jmp a)
  | brz a => cases h; exact .branch (.brz a)
  | brn a => cases h; exact .branch (.brn a)
  | prc ignored code => cases h; exact .send (.char ignored code)
  | halt x => cases h; exact .halt (.halt x)
  | endSentinel x => cases h; exact .halt (.endSentinel x)
  | illegalE x => cases h; exact .raise (.illegalE x)
  | illegalF x => cases h; exact .raise (.illegalF x)

/-! ### Each effect happens -/

theorem AluOp.exec_eq {f : Word → Word → Int} (h : AluOp i a f) (s : State) : exec i s = s.combine a f := by
  cases h <;> rfl

theorem State.BranchesOn.exec_eq {flag : Bool} (h : s.BranchesOn i flag a) : exec i s = .next (s.branchIf flag a) := by
  cases h <;> rfl

theorem State.Sends.exec_eq {e : Event} (h : s.Sends i e) : exec i s = .next (s.emit e) := by
  cases h with
  | num a ok => exact execPrt_of_ok ok
  | char ignored code => rfl
  | str a bs found nonzero => simp only [exec, execPrs, effectiveAddress_toNat, found]

theorem Halts.exec_eq {c : StopCause} (h : Halts i c) (s : State) : exec i s = .next (s.halt c) := by
  cases h <;> rfl

/-- ADD, SUB and MUL in bounds, under either overflow option. -/
theorem State.combine_of_wordOk (h : s.WordOk a.toNat) (f : Word → Word → Int) :
    s.combine a f = .next (s.putResultFlags (f s.acc (s.mem.readWord a.toNat))) := by
  simp only [State.combine, State.operandWord_of_ok h]

/-- What stops the word access of an instruction stops the instruction. -/
theorem exec_of_wordTrap {e : Trap} (hop : i.wordOperand = some a) (htrap : s.wordTrap a.toNat = some e) :
    exec i s = s.trap e := by
  have hread : s.operandWord a = .error e := by
    simp only [State.operandWord, effectiveAddress_toNat, State.readWord, htrap]
  cases i with
  | sta b => cases hop; simp only [exec, execSta, effectiveAddress_toNat, State.writeWord, htrap]
  | lda b => cases hop; simp only [exec, execLda, hread]
  | add b => cases hop; simp only [exec, execAdd, State.combine, hread]
  | sub b => cases hop; simp only [exec, execSub, State.combine, hread]
  | mul b => cases hop; simp only [exec, execMul, State.combine, hread]
  | prt b => cases hop; simp only [exec, execPrt, hread]
  | _ => cases hop

theorem State.push_of_ok (room : s.sp.toNat + 2 ≤ s.cfg.stackTop.toNat) (ok : s.WordOk s.sp.toNat) (v : Word) :
    s.push v = .ok { s with mem := s.mem.writeWord s.sp.toNat v, sp := s.sp + 2#16 } := by
  simp only [State.push, if_neg (Nat.not_lt.2 room), State.writeWord_of_ok ok, State.setSp]

theorem execCal_of_room (room : s.sp.toNat + 2 ≤ s.cfg.stackTop.toNat) (ok : s.WordOk s.sp.toNat) :
    exec (.cal a) s =
      .next { s with mem := s.mem.writeWord s.sp.toNat s.pc, sp := s.sp + 2#16, pc := effectiveAddress a } := by
  simp only [exec, execCal, State.push_of_ok room ok, State.setPc]

theorem execCal_of_full (full : s.cfg.stackTop.toNat < s.sp.toNat + 2) :
    exec (.cal a) s = .next (s.raise .stackOverflow s.fpc (some s.ir) (some s.sp.toNat)) := by
  simp only [exec, execCal, State.push, if_pos full, State.trap_fatal]

/-- With room on the stack, what stops the word access at the cursor stops CAL. -/
theorem execCal_of_wordTrap {e : Trap} (room : s.sp.toNat + 2 ≤ s.cfg.stackTop.toNat)
    (htrap : s.wordTrap s.sp.toNat = some e) : exec (.cal a) s = s.trap e := by
  simp only [exec, execCal, State.push, if_neg (Nat.not_lt.2 room), State.writeWord, htrap]

/-- On a stack that is not empty, what stops the word access below the cursor stops RET. -/
theorem execRet_of_wordTrap {e : Trap} (nonempty : s.sp ≠ s.cfg.stackBase)
    (htrap : s.wordTrap (s.sp - 2#16).toNat = some e) : exec .ret s = s.trap e := by
  simp only [exec, execRet, State.pop, if_neg nonempty, State.readWord, htrap]

/-- An instruction that raises ends in the raise. -/
theorem State.Raises.exec_eq {k : FatalCondition} {fa : Option Nat} (h : s.Raises i k fa) :
    exec i s = .next (s.raise k s.fpc (some s.ir) fa) := by
  cases h with
  | wordBound operand out => exact exec_of_wordTrap operand (State.wordTrap_of_out out)
  | scanBound a endless => simp only [exec, execPrs, effectiveAddress_toNat, endless, State.trap_fatal]
  | overflow a full => exact execCal_of_full full
  | pushBound a room out => exact execCal_of_wordTrap room (State.wordTrap_of_out out)
  | underflow empty => exact execRet_of_empty empty
  | popBound nonempty out => exact execRet_of_wordTrap nonempty (State.wordTrap_of_out out)
  | illegalE x => rfl
  | illegalF x => rfl

/-- The effects say exactly how an instruction can end in a next state. -/
theorem exec_eq_next_iff : exec i s = .next t ↔ Effect s i t := by
  refine ⟨exec_effect, fun h => ?_⟩
  cases h with
  | load a ok => exact execLda_of_ok ok
  | store a ok => exact execSta_of_ok ok
  | arith op ok => exact (op.exec_eq s).trans (State.combine_of_wordOk ok _)
  | increment => rfl
  | branch br => exact br.exec_eq
  | call a room ok => exact execCal_of_room room ok
  | ret nonempty ok => exact execRet_of_nonempty nonempty ok
  | send sent => exact sent.exec_eq
  | halt halted => exact halted.exec_eq s
  | raise raised => exact raised.exec_eq

/-! ### What every effect leaves -/

/-- Either an effect leaves RUN and STOP alone, or it stops normally, or it raises. -/
theorem Effect.stop_cases (h : Effect s i t) :
    (t.run = s.run ∧ t.stop = s.stop) ∨ (∃ c, Halts i c ∧ t = s.halt c) ∨
      ∃ k fa, s.Raises i k fa ∧ t = s.raise k s.fpc (some s.ir) fa := by
  cases h with
  | halt halted => exact .inr (.inl ⟨_, halted, rfl⟩)
  | raise raised => exact .inr (.inr ⟨_, _, raised, rfl⟩)
  | branch br => left; simp [State.branchIf_eq]
  | _ => left; simp

/-- No step changes the configuration (R5, log entry 1). -/
theorem Effect.cfg_eq (h : Effect s i t) : t.cfg = s.cfg := by
  cases h with
  | branch br => rw [State.branchIf_eq]
  | _ => simp

theorem step_cfg (h : step s = .next t) : t.cfg = s.cfg := by
  obtain ⟨-, ⟨-, rfl⟩ | ⟨-, hexec⟩⟩ := step_next h
  · rfl
  · exact (exec_effect hexec).cfg_eq

end Sys2Proof.Machine
end

section
/-! The invariant: each effect keeps it, each stop record is explained, and with them its obligations and those on the start
of a run. -/

namespace Sys2Proof.Machine

variable {s t : State} {i : Instr}

/-! ### The stack cursor -/

/-- What the invariant says of the call stack: a valid region and an even cursor within it (R5, R29). Unlike the invariant it
does not look at the stop record, so the stack controller keeps it in a stopped machine too. -/
structure State.StackReady (s : State) : Prop where
  cfg_valid : s.cfg.Valid
  sp_even : s.sp.toNat % 2 = 0
  sp_low : s.cfg.stackBase.toNat ≤ s.sp.toNat
  sp_high : s.sp.toNat ≤ s.cfg.stackTop.toNat

theorem State.Inv.stackReady (hinv : s.Inv) : s.StackReady :=
  ⟨hinv.cfg_valid, hinv.sp_even, hinv.sp_low, hinv.sp_high⟩

/-- A slot with room above it is inside memory and at an even address. -/
theorem State.StackReady.wordOk_slot (hs : s.StackReady) (room : s.sp.toNat + 2 ≤ s.cfg.stackTop.toNat) :
    s.WordOk s.sp.toNat := by
  obtain ⟨-, -, -, htop, -⟩ := hs.cfg_valid
  exact ⟨.inr hs.sp_even, by omega⟩

/-- With room on the stack the cursor advances without wrap. -/
theorem State.sp_add_two_toNat (room : s.sp.toNat + 2 ≤ s.cfg.stackTop.toNat) :
    (s.sp + 2#16).toNat = s.sp.toNat + 2 :=
  BitVec.toNat_add_of_lt (lt_of_le_of_lt room s.cfg.stackTop.isLt)

/-- A push keeps the cursor's rules. -/
theorem State.StackReady.push (hs : s.StackReady) (room : s.sp.toNat + 2 ≤ s.cfg.stackTop.toNat) (m : Memory) :
    State.StackReady { s with mem := m, sp := s.sp + 2#16 } := by
  have hsp := State.sp_add_two_toNat room
  have heven := hs.sp_even
  have hlow := hs.sp_low
  exact ⟨hs.cfg_valid, by simp only [hsp]; omega, by simp only [hsp]; omega, by simpa only [hsp] using room⟩

/-- A stack that is not empty holds a whole slot, since the cursor and the region's bottom are even. -/
theorem State.StackReady.slot_below (hs : s.StackReady) (nonempty : s.sp ≠ s.cfg.stackBase) :
    s.cfg.stackBase.toNat + 2 ≤ s.sp.toNat := by
  have hne : s.sp.toNat ≠ s.cfg.stackBase.toNat := mt BitVec.eq_of_toNat_eq nonempty
  have hlow := hs.sp_low
  have heven := hs.sp_even
  obtain ⟨hbase, -⟩ := hs.cfg_valid
  omega

theorem State.StackReady.sp_sub_two_toNat (hs : s.StackReady) (nonempty : s.sp ≠ s.cfg.stackBase) :
    (s.sp - 2#16).toNat = s.sp.toNat - 2 :=
  BitVec.toNat_sub_of_le (BitVec.le_def.2 (Nat.le_trans (Nat.le_add_left 2 _) (hs.slot_below nonempty)))

/-- The slot that a pop reads is inside memory and at an even address. -/
theorem State.StackReady.wordOk_below (hs : s.StackReady) (nonempty : s.sp ≠ s.cfg.stackBase) :
    s.WordOk (s.sp - 2#16).toNat := by
  obtain ⟨-, -, -, htop, -⟩ := hs.cfg_valid
  have heven := hs.sp_even
  have hhigh := hs.sp_high
  rw [hs.sp_sub_two_toNat nonempty]
  exact ⟨.inr (by omega), by omega⟩

/-- A pop keeps the cursor's rules. -/
theorem State.StackReady.pop (hs : s.StackReady) (nonempty : s.sp ≠ s.cfg.stackBase) :
    State.StackReady { s with sp := s.sp - 2#16 } := by
  have hsp := hs.sp_sub_two_toNat nonempty
  have hbelow := hs.slot_below nonempty
  have heven := hs.sp_even
  have hhigh := hs.sp_high
  exact ⟨hs.cfg_valid, by simp only [hsp]; omega, by simp only [hsp]; omega, by simp only [hsp]; omega⟩

/-! ### The stop records -/

/-- A running machine has no stop record to explain. -/
theorem State.explained_of_running (hrun : s.run = .running) (hstop : s.run = .stopped) : s.StopExplained := by
  rw [hrun] at hstop
  cases hstop

/-- The record of a normal stop is explained by the instruction in IR (R84). -/
theorem Halts.explained {c : StopCause} (h : Halts i c) (hir : decodeWord s.ir = i) : (s.halt c).StopExplained := by
  cases h with
  | halt x => exact .halted s.ir x hir rfl
  | endSentinel x => exact .ended s.ir x hir rfl

/-- Under the invariant the record of every fatal stop is explained by the instruction in IR (R176): the bound never stops
a stack slot. -/
theorem State.Raises.explained {k : FatalCondition} {fa : Option Nat} (h : s.Raises i k fa) (hinv : s.Inv)
    (hir : decodeWord s.ir = i) : (s.raise k s.fpc (some s.ir) fa).StopExplained := by
  cases h with
  | wordBound operand out => exact .wordBound s.ir _ (hir ▸ operand) out.2 rfl
  | scanBound a endless => exact .scanBound s.ir a hir rfl
  | overflow a full => exact .overflow s.ir a hir full rfl
  | pushBound a room out => exact absurd (hinv.stackReady.wordOk_slot room).2 (Nat.not_lt.2 out.2)
  | underflow empty => exact .underflow s.ir hir empty rfl
  | popBound nonempty out => exact absurd (hinv.stackReady.wordOk_below nonempty).2 (Nat.not_lt.2 out.2)
  | illegalE x => exact .illegal s.ir x (.inl hir) rfl
  | illegalF x => exact .illegal s.ir x (.inr hir) rfl

/-! ### Each effect keeps the invariant -/

theorem State.Sends.legal {e : Event} (h : s.Sends i e) : e.Legal := by
  cases h with
  | num a ok => exact smdec_bounds _
  | char ignored code => trivial
  | str a bs found nonzero => exact nonzero

/-- Writing a result keeps the invariant of a running machine, whatever word it is (R95). -/
theorem State.Inv.putResult (hinv : s.Inv) (hrun : s.run = .running) (x : Int) : (s.putResult x).Inv := by
  unfold State.putResult State.countDraw
  split
  all_goals exact { hinv with stop_explained := State.explained_of_running hrun }

/-- The effect of the instruction in IR keeps the invariant of a running machine. -/
theorem Effect.inv (h : Effect s i t) (hinv : s.Inv) (hrun : s.run = .running) (hir : decodeWord s.ir = i) : t.Inv := by
  cases h with
  | load a ok =>
    exact { hinv with
      flags_exclusive := flagsMutuallyExclusive _
      stop_explained := State.explained_of_running hrun }
  | store a ok =>
    exact { hinv with
      mem_wf := Memory.wf_writeWord hinv.mem_wf _ _
      mem_within := Memory.within_writeWord hinv.mem_within ok.2 _
      stop_explained := State.explained_of_running hrun }
  | arith op ok =>
    exact { hinv.putResult hrun _ with
      flags_exclusive := flagsMutuallyExclusive _
      stop_explained := State.explained_of_running (by simpa using hrun) }
  | increment => exact hinv.putResult hrun _
  | branch br =>
    rw [State.branchIf_eq]
    exact { hinv with stop_explained := State.explained_of_running hrun }
  | call a room ok =>
    have hs := hinv.stackReady.push room s.mem
    exact { hinv with
      mem_wf := Memory.wf_writeWord hinv.mem_wf _ _
      mem_within := Memory.within_writeWord hinv.mem_within ok.2 _
      sp_even := hs.sp_even
      sp_low := hs.sp_low
      sp_high := hs.sp_high
      stop_explained := State.explained_of_running hrun }
  | ret nonempty ok =>
    have hs := hinv.stackReady.pop nonempty
    exact { hinv with
      sp_even := hs.sp_even
      sp_low := hs.sp_low
      sp_high := hs.sp_high
      stop_explained := State.explained_of_running hrun }
  | send sent =>
    exact { hinv with
      out_legal := List.forall_mem_append.2 ⟨hinv.out_legal, List.forall_mem_singleton.2 sent.legal⟩
      stop_explained := State.explained_of_running hrun }
  | halt halted => exact { hinv with stop_explained := fun _ => halted.explained hir }
  | raise raised => exact { hinv with stop_explained := fun _ => raised.explained hinv hir }

/-- Settles O44: a fetch at the bound is explained by PC, and every effect keeps the invariant of the latched state. -/
theorem stepKeepsInv : Obligations.StepKeepsInv := by
  intro s t hinv hstep
  obtain ⟨hrun, ⟨hout, rfl⟩ | ⟨hok, hexec⟩⟩ := step_next hstep
  · exact { hinv with stop_explained := fun _ => .fetchBound hout.2 rfl }
  · have hlatch : (s.latch (s.mem.readWord s.pc.toNat)).Inv :=
      { hinv with stop_explained := State.explained_of_running hrun }
    exact (exec_effect hexec).inv hlatch hrun rfl

/-! ### The start of a run -/

/-- The memory after the loader and before the input provider (R191 steps 1 and 2). -/
def Image.loaded (img : Image) : Memory :=
  Memory.loadWords (Memory.loadWords [] img.data.base img.data.words) img.code.base img.code.words

theorem Image.loaded_wf (img : Image) : img.loaded.wf :=
  Memory.wf_loadWords _ (Memory.wf_loadWords _ Memory.wf_nil _) _

/-- The memory a run starts with is canonical, whatever the image. -/
theorem Image.memory_wf (img : Image) : img.memory.wf :=
  Memory.wf_seed _ img.loaded_wf

/-- An image that fits leaves nothing beyond the end of memory (R40). -/
theorem Image.memory_within {img : Image} {size : Nat} (hdata : img.data.Fits size) (hcode : img.code.Fits size)
    (hseeds : ∀ x ∈ img.seeds, x.1 + 1 < size) : img.memory.within size :=
  Memory.within_seed _ (Memory.within_loadWords _ (Memory.within_loadWords _ (List.forall_mem_nil _) hdata) hcode) hseeds

/-- The start state meets the invariant: an empty stack, no event and a machine that runs. -/
theorem State.start_inv {c : Config} {m : Memory} (hc : c.Valid) (hwf : m.wf) (hwithin : m.within c.memSize)
    (entry : Word) : (State.start c m entry).Inv where
  cfg_valid := hc
  mem_wf := hwf
  mem_within := hwithin
  sp_even := hc.1
  sp_low := le_rfl
  sp_high := hc.2.2.1
  flags_exclusive := by simp [State.start]
  out_legal := List.forall_mem_nil _
  stop_explained := State.explained_of_running rfl

/-- Settles O43: reset and boot are start states. -/
theorem runStartMeetsInv : Obligations.RunStartMeetsInv :=
  ⟨State.start_inv (by decide) Memory.wf_nil (List.forall_mem_nil _) _,
    fun _ _ entry hc hwf hwithin => State.start_inv hc hwf hwithin entry,
    fun _ img hc hdata hcode hseeds =>
      State.start_inv hc img.memory_wf (Image.memory_within hdata hcode hseeds) img.entry⟩

/-- Settles O42: the fields of the start state, and reset's parameters and empty memory by evaluation. -/
theorem runStartState : Obligations.RunStartState :=
  ⟨fun _ _ _ => ⟨rfl, rfl, rfl, rfl, rfl, rfl, rfl, rfl, rfl⟩, rfl, rfl, rfl, ⟨rfl, rfl⟩, rfl,
    fun _ => ⟨rfl, (by decide : decodeWord (wordOfBytes 0x00#8 0x00#8) = .endSentinel 0x000#12)⟩⟩

end Sys2Proof.Machine
end

section
/-! The BYTE_PAIR machine beside a machine under either option (93_implementation_defined.md I1): it takes every step the
other takes. Beside it the refusals of the option FAULT. -/

namespace Sys2Proof.Machine

variable {s t : State} {i : Instr} {a : Operand} {n : Nat}

/-- `s` with the hardware's treatment of a word access at an odd address (R48). -/
def State.bytePair (s : State) : State := { s with cfg := { s.cfg with misaligned := .bytePair } }

/-! ### The BYTE_PAIR machine has every effect -/

theorem State.wordOk_bytePair (ok : s.WordOk n) : s.bytePair.WordOk n := ⟨.inl rfl, ok.2⟩

theorem State.wordOut_bytePair (out : s.WordOut n) : s.bytePair.WordOut n := ⟨.inl rfl, out.2⟩

theorem State.putResult_bytePair (x : Int) : s.bytePair.putResult x = (s.putResult x).bytePair := by
  have hdrawn : s.bytePair.drawn x = s.drawn x := rfl
  simp only [State.putResult, State.countDraw, State.resultWord, hdrawn]
  split <;> rfl

theorem State.branchIf_bytePair (flag : Bool) : s.bytePair.branchIf flag a = (s.branchIf flag a).bytePair := by
  cases flag <;> rfl

theorem State.BranchesOn.bytePair {flag : Bool} (h : s.BranchesOn i flag a) : s.bytePair.BranchesOn i flag a := by
  cases h with
  | jmp a => exact .jmp a
  | brz a => exact .brz a
  | brn a => exact .brn a

theorem State.Sends.bytePair {e : Event} (h : s.Sends i e) : s.bytePair.Sends i e := by
  cases h with
  | num a ok => exact .num a (State.wordOk_bytePair ok)
  | char ignored code => exact .char ignored code
  | str a bs found nonzero => exact .str a bs found nonzero

theorem State.Raises.bytePair {k : FatalCondition} {fa : Option Nat} (h : s.Raises i k fa) :
    s.bytePair.Raises i k fa := by
  cases h with
  | wordBound operand out => exact .wordBound operand (State.wordOut_bytePair out)
  | scanBound a endless => exact .scanBound a endless
  | overflow a full => exact .overflow a full
  | pushBound a room out => exact .pushBound a room (State.wordOut_bytePair out)
  | underflow empty => exact .underflow empty
  | popBound nonempty out => exact .popBound nonempty (State.wordOut_bytePair out)
  | illegalE x => exact .illegalE x
  | illegalF x => exact .illegalF x

/-- No effect depends on the option beyond the word check, which BYTE_PAIR only relaxes. -/
theorem Effect.bytePair (h : Effect s i t) : Effect s.bytePair i t.bytePair := by
  cases h with
  | load a ok => exact .load a (State.wordOk_bytePair ok)
  | store a ok => exact .store a (State.wordOk_bytePair ok)
  | arith op ok =>
    have harith := Effect.arith op (State.wordOk_bytePair ok)
    rw [State.putResultFlags, State.putResult_bytePair] at harith
    exact harith
  | increment => exact State.putResult_bytePair (s := s) _ ▸ .increment
  | branch br => exact State.branchIf_bytePair (s := s) _ ▸ .branch br.bytePair
  | call a room ok => exact .call a room (State.wordOk_bytePair ok)
  | ret nonempty ok => exact .ret nonempty (State.wordOk_bytePair ok)
  | send sent => exact .send sent.bytePair
  | halt halted => exact .halt halted
  | raise raised => exact .raise raised.bytePair

/-- Whatever step a machine takes, the BYTE_PAIR machine beside it takes the same one. -/
theorem step_bytePair (h : step s = .next t) : step s.bytePair = .next t.bytePair := by
  obtain ⟨hrun, ⟨hout, rfl⟩ | ⟨hok, hexec⟩⟩ := step_next h
  · exact step_of_out hrun (State.wordOut_bytePair hout)
  · rw [step_of_ok (s := s.bytePair) hrun (State.wordOk_bytePair hok)]
    exact exec_eq_next_iff.2 (exec_effect hexec).bytePair

/-! ### The obligations -/

/-- Settles O51: the FAULT machine's step, taken by the BYTE_PAIR machine beside it. -/
theorem misalignedOptionOnlyRefuses : Obligations.MisalignedOptionOnlyRefuses := by
  intro s t hstep
  refine (step_bytePair hstep).trans ?_
  rw [State.bytePair, step_cfg hstep]

/-- Settles O50: at an odd address each word check answers the refusal. -/
theorem misalignedOptionRefuses : Obligations.MisalignedOptionRefuses := fun s hfault => by
  refine ⟨fun hrun hodd => step_of_odd hrun hfault hodd,
    fun i a hop hodd => exec_of_wordTrap hop (State.wordTrap_of_odd hfault hodd),
    fun a hodd room => execCal_of_wordTrap room (State.wordTrap_of_odd hfault hodd), fun hodd nonempty => ?_⟩
  have hslot : (s.sp - 2#16).toNat % 2 = 1 := by bv_omega
  exact execRet_of_wordTrap nonempty (State.wordTrap_of_odd hfault hslot)

end Sys2Proof.Machine
end

section
/-! The codec's round trips, its wrap out of range, and the exact results of the ALU, with the obligations of
41_alu_codec.md R92, R93, R97 and R98. -/

namespace Sys2Proof.Machine

/-! ### The round trips -/

theorem smdec_smenc {x : Int} (hlow : -32767 ≤ x) (hhigh : x ≤ 32767) : smdec (smenc x) = x := by
  rw [smdec_eq, smenc_toNat]
  split <;> split at * <;> omega

/-- `0x8000` is the one word that does not come back: it is the second zero. -/
theorem smenc_smdec {w : Word} (hw : w ≠ 0x8000#16) : smenc (smdec w) = w := by
  have hlt := w.isLt
  have hw' : w.toNat ≠ 32768 := fun h => hw (BitVec.eq_of_toNat_eq h)
  apply BitVec.eq_of_toNat_eq
  rw [smenc_toNat, smdec_eq]
  split <;> split <;> omega

/-- Settles O7. -/
theorem codecRoundTrip : Obligations.CodecRoundTrip :=
  ⟨fun _ hlow hhigh => smdec_smenc hlow hhigh, fun _ hw => smenc_smdec hw, by decide⟩

/-! ### The wrap -/

/-- The sign bit of an encoded integer, as its most significant bit (R91). -/
theorem smenc_msb (x : Int) : (smenc x).msb = decide (x < 0) := by
  rw [Bool.eq_iff_iff, msb_eq_true_iff, smenc_toNat, decide_eq_true_iff]
  split <;> omega

theorem magnitude_smenc (x : Int) : (magnitude (smenc x)).toNat = x.natAbs % 32768 := by
  rw [magnitude_toNat, smenc_toNat]
  split <;> omega

/-- The negative zero is written for a negative multiple of 32768 and for nothing else. -/
theorem smenc_eq_negZero_iff (x : Int) : smenc x = 0x8000#16 ↔ x < 0 ∧ x.natAbs % 32768 = 0 := by
  rw [← BitVec.toNat_inj, smenc_toNat, BitVec.toNat_ofNat]
  split <;> omega

/-- Settles O8: the fields of an encoded integer hold in range and out of it; the two wrapped results by evaluation. -/
theorem overflowWraps : Obligations.OverflowWraps := by
  refine ⟨fun x _ => ⟨smenc_msb x, magnitude_smenc x⟩, smenc_eq_negZero_iff, fun x hlow hhigh hneg => ?_, by decide, by decide⟩
  obtain ⟨hsign, hmag⟩ := (smenc_eq_negZero_iff x).1 hneg
  omega

/-! ### The exact results -/

theorem smdec_natAbs_le (w : Word) : (smdec w).natAbs ≤ 32767 := by
  have := smdec_bounds w
  omega

/-- The exact product is bounded by the product of the greatest magnitudes (R97). -/
theorem mulExact_natAbs_le (a b : Word) : (mulExact a b).natAbs ≤ 1073676289 := by
  rw [mulExact, Int.natAbs_mul]
  exact Nat.mul_le_mul (smdec_natAbs_le a) (smdec_natAbs_le b)

/-- Settles O11: the integers of words lie in -32767..32767. -/
theorem aluExactRanges : Obligations.AluExactRanges := by
  intro a b
  have ha := smdec_bounds a
  have hb := smdec_bounds b
  have hmul := mulExact_natAbs_le a b
  simp only [addExact, subExact, incExact]
  omega

/-- Both zeros decode to the integer 0 (R90). -/
theorem smdec_negZero : smdec 0x8000#16 = smdec 0x0000#16 := by decide

/-- Settles O12: the ALU sees only the integers of its operands, and the two zeros have one. -/
theorem negativeZeroActsAsZero : Obligations.NegativeZeroActsAsZero := by
  refine ⟨fun b => ?_, by decide, fun a b hzero => ?_⟩
  · simp only [aluAdd, aluSub, addExact, subExact, smdec_negZero, and_self]
  · have hprod : mulExact a b = 0 := Int.mul_eq_zero.2 hzero
    rw [aluMul, hprod]
    decide

end Sys2Proof.Machine
end

section
/-! The frames of 10_state.md and the precise stop of 60_exceptions.md R177, each read off the effects. -/

namespace Sys2Proof.Machine

variable {s t : State} {i : Instr} {a : Operand}

/-! ### ACC and the flags -/

/-- The instructions that set the flags (R27). -/
def SetsFlags (i : Instr) : Prop := ∃ a, i = .lda a ∨ i = .add a ∨ i = .sub a ∨ i = .mul a

theorem AluOp.setsFlags {f : Word → Word → Int} (h : AluOp i a f) : SetsFlags i := by
  refine ⟨a, ?_⟩
  cases h <;> simp

theorem Effect.acc_writer (h : Effect s i t) (hacc : t.acc ≠ s.acc) : i = .iac ∨ SetsFlags i := by
  cases h with
  | load a ok => exact .inr ⟨a, .inl rfl⟩
  | arith op ok => exact .inr op.setsFlags
  | increment => exact .inl rfl
  | branch br => rw [State.branchIf_eq] at hacc; exact absurd rfl hacc
  | _ => exact absurd rfl hacc

theorem Effect.flag_writer (h : Effect s i t) (hflag : t.z ≠ s.z ∨ t.n ≠ s.n) : SetsFlags i := by
  cases h with
  | load a ok => exact ⟨a, .inl rfl⟩
  | arith op ok => exact op.setsFlags
  | branch br => simp [State.branchIf_eq] at hflag
  | _ => simp at hflag

/-- A flag-setting instruction that did not stop leaves the flags of the new ACC (R94). -/
theorem Effect.flags_of_acc (h : Effect s i t) (hset : SetsFlags i) (hrun : t.run = .running) :
    t.z = flagZ t.acc ∧ t.n = flagN t.acc := by
  cases h with
  | load a ok => exact ⟨rfl, rfl⟩
  | arith op ok => simp
  | raise raised => cases hrun
  | branch br => cases br <;> simp [SetsFlags] at hset
  | send sent => cases sent <;> simp [SetsFlags] at hset
  | halt halted => cases hrun
  | _ => simp [SetsFlags] at hset

/-- Settles O35. -/
theorem accAndFlagWriters : Obligations.AccAndFlagWriters := fun _ _ _ hexec =>
  ⟨(exec_effect hexec).acc_writer, (exec_effect hexec).flag_writer,
    fun a hset => (exec_effect hexec).flags_of_acc ⟨a, hset⟩⟩

/-! ### SP and PC -/

/-- Settles O36: CAL and RET are the effects that name SP. -/
theorem stackCursorWriters : Obligations.StackCursorWriters := by
  intro i s t hexec hsp
  cases exec_effect hexec with
  | call a room ok => exact .inl ⟨a, rfl, rfl⟩
  | ret nonempty ok => exact .inr ⟨rfl, rfl⟩
  | branch br => simp [State.branchIf_eq] at hsp
  | _ => simp at hsp

/-- An instruction that takes its branch is a jump or a branch whose flag is set (R130 to R132). -/
theorem State.BranchesOn.taken {flag : Bool} (h : s.BranchesOn i flag a) (hflag : flag = true) :
    i = .jmp a ∨ i = .cal a ∨ (i = .brz a ∧ s.z = true) ∨ (i = .brn a ∧ s.n = true) := by
  cases h with
  | jmp => exact .inl rfl
  | brz => exact .inr (.inr (.inl ⟨rfl, hflag⟩))
  | brn => exact .inr (.inr (.inr ⟨rfl, hflag⟩))

/-- Settles O37: the branch that is not taken leaves PC. -/
theorem programCounterWriters : Obligations.ProgramCounterWriters := by
  intro i s t hexec hpc
  cases exec_effect hexec with
  | @branch _ flag a br =>
    cases flag with
    | false => exact absurd rfl hpc
    | true => exact .inl ⟨a, br.taken rfl, rfl⟩
  | call a room ok => exact .inl ⟨a, .inr (.inl rfl), rfl⟩
  | ret nonempty ok => exact .inr ⟨rfl, rfl⟩
  | _ => simp at hpc

/-! ### Memory -/

theorem Effect.mem_eq (h : Effect s i t) (hstore : ∀ a, i ≠ .sta a ∧ i ≠ .cal a) : t.mem = s.mem := by
  cases h with
  | store a ok => exact absurd rfl (hstore a).1
  | call a room ok => exact absurd rfl (hstore a).2
  | branch br => rw [State.branchIf_eq]
  | _ => simp

/-- Settles O38. -/
theorem nonStoringFrame : Obligations.NonStoringFrame := fun _ _ _ hstore hexec c =>
  congrArg (Memory.read · c) ((exec_effect hexec).mem_eq hstore)

/-- A word write leaves every byte but its two. -/
theorem Memory.read_writeWord_of_ne {m : Memory} (hwf : m.wf) {n c : Nat} (v : Word) (hhi : c ≠ n) (hlo : c ≠ n + 1) :
    (m.writeWord n v).read c = m.read c := by
  rw [Memory.read_writeWord hwf, if_neg hhi, if_neg hlo]

/-- Settles O39: each stores one word, or stops with memory as it was. -/
theorem storingFrame : Obligations.StoringFrame := by
  intro a s t hwf
  refine ⟨fun hexec c hhi hlo => ?_, fun hexec c hhi hlo => ?_⟩
  · rw [effectiveAddress_toNat] at hhi hlo
    rcases execSta_next hexec with ⟨-, rfl⟩ | ⟨-, rfl⟩
    · exact Memory.read_writeWord_of_ne hwf _ hhi hlo
    · rfl
  · rcases execCal_next hexec with ⟨-, -, rfl⟩ | ⟨-, rfl⟩ | ⟨-, -, rfl⟩
    · exact Memory.read_writeWord_of_ne hwf _ hhi hlo
    · rfl
    · rfl

/-! ### OUT, RUN and STOP -/

/-- Settles O40: `send` is the one effect on OUT. -/
theorem outputOnlyAppends : Obligations.OutputOnlyAppends := by
  intro i s t hexec
  cases exec_effect hexec with
  | send sent =>
    refine .inr ⟨rfl, rfl, ?_⟩
    cases sent with
    | num a ok => exact .inl ⟨a, _, rfl, rfl⟩
    | char ignored code => exact .inr (.inl ⟨ignored, code, rfl, rfl⟩)
    | str a bs found nonzero => exact .inr (.inr ⟨a, bs, rfl, rfl⟩)
  | branch br => left; rw [State.branchIf_eq]
  | _ => left; simp

theorem Effect.ir_eq (h : Effect s i t) : t.ir = s.ir := by
  cases h with
  | branch br => rw [State.branchIf_eq]
  | _ => simp

/-- Under the hardware's wrap no result is drawn (R92). -/
theorem Effect.draws_eq (h : Effect s i t) (hwrap : s.cfg.overflow = .wrap) : t.draws = s.draws := by
  cases h with
  | arith op ok => rw [State.putResultFlags_of_wrap hwrap]
  | increment => rw [State.putResult_of_wrap hwrap]
  | branch br => rw [State.branchIf_eq]
  | _ => simp

/-- Settles O41. -/
theorem controlStateFrame : Obligations.ControlStateFrame := by
  intro i s t hexec
  have heff := exec_effect hexec
  refine ⟨heff.ir_eq, heff.cfg_eq, heff.draws_eq, ?_⟩
  rcases heff.stop_cases with hsame | ⟨c, halted, rfl⟩ | ⟨k, fa, -, rfl⟩
  · exact .inl hsame
  · refine .inr ⟨rfl, rfl, rfl, ?_⟩
    cases halted with
    | halt x => exact .inl ⟨x, rfl, rfl⟩
    | endSentinel x => exact .inr (.inl ⟨x, rfl, rfl⟩)
  · exact .inr ⟨rfl, rfl, rfl, .inr (.inr rfl)⟩

theorem Halts.cause_ne_fatal {c : StopCause} (h : Halts i c) : c ≠ .fatal := by
  cases h <;> decide

/-- Settles O34: a fatal stop is the fetch's raise or a raise of the latched state. -/
theorem preciseStops : Obligations.PreciseStops := by
  rintro s t hstep ⟨hstopped, hfatal⟩
  obtain ⟨hrun, ⟨-, rfl⟩ | ⟨-, hexec⟩⟩ := step_next hstep
  · exact ⟨rfl, rfl, .inl ⟨rfl, rfl, rfl⟩⟩
  · rcases (exec_effect hexec).stop_cases with ⟨hsame, -⟩ | ⟨c, halted, rfl⟩ | ⟨k, fa, -, rfl⟩
    · rw [hsame, State.latch_run, hrun] at hstopped; cases hstopped
    · exact absurd hfatal halted.cause_ne_fatal
    · exact ⟨rfl, State.latch_fpc _ _, .inr ⟨rfl, rfl, rfl⟩⟩

end Sys2Proof.Machine
end

section
/-! The word access, SUB, CAL, the scan of PRS, the overflow option and the stops, each by its equations, with the obligations
on single operations. -/

namespace Sys2Proof.Machine

open Sys2Proof.Statements

variable {s t : State} {i : Instr} {a : Operand}

/-! ### Word accesses -/

/-- Settles O13: a word in bounds is its two bytes, and a write of it leaves canonical memory to read from. -/
theorem wordAccessInBounds : Obligations.WordAccessInBounds := by
  intro s n v hwf hok
  have hread := Memory.read_writeWord hwf n v
  refine ⟨⟨_, State.readWord_of_ok hok, wordOfBytes_toNat _ _⟩,
    { s with mem := s.mem.writeWord n v }, State.writeWord_of_ok hok v, rfl, ?_, ?_, ?_,
    fun c hhi hlo => Memory.read_writeWord_of_ne hwf v hhi hlo⟩
  · calc State.readWord { s with mem := s.mem.writeWord n v } n
        = .ok ((s.mem.writeWord n v).readWord n) := State.readWord_of_ok hok
      _ = .ok v := by rw [Memory.readWord_writeWord hwf]
  · rw [hread, if_pos rfl, hiByte_toNat]
  · rw [hread, if_neg (by omega), if_pos rfl, loByte_toNat]

/-- Settles O14. -/
theorem wordAccessOutOfBounds : Obligations.WordAccessOutOfBounds := fun _ _ v hout =>
  ⟨State.readWord_of_out hout, State.writeWord_of_out hout v⟩

/-! ### Arithmetic -/

/-- In range the flags of an encoded integer are those of the integer itself (R93, R94). -/
theorem flags_smenc {x : Int} (hrange : x.natAbs ≤ 32767) :
    (flagN (smenc x) = true ↔ x < 0) ∧ (flagZ (smenc x) = true ↔ x = 0) := by
  rw [flagN_iff_smdec, flagZ_iff_smdec, smdec_smenc (by omega) (by omega)]
  exact ⟨Iff.rfl, Iff.rfl⟩

/-- Settles O18: SUB is `combine` with the exact difference, whose sign the flags give. -/
theorem subtractMemory : Obligations.SubtractMemory := by
  intro a s hwrap
  refine ⟨decodeWord_opcodeWord 0x4#4 a, fun hok => State.combine_of_ok hwrap hok subExact,
    fun hout => State.combine_of_out hout subExact, fun t hok hexec hrange => ?_⟩
  obtain ⟨hneg, hzero⟩ := flags_smenc hrange
  cases hexec.symm.trans (State.combine_of_ok hwrap hok subExact)
  exact ⟨hneg.trans sub_neg, hzero.trans sub_eq_zero⟩

/-- A result that is not drawn is written as the hardware writes it (R96, I2). -/
theorem State.putResult_of_not_drawn {x : Int} (h : s.drawn x = false) : s.putResult x = { s with acc := smenc x } := by
  simp [State.putResult, State.countDraw, State.resultWord, h, State.setAcc]

theorem State.putResult_of_drawn {x : Int} (h : s.drawn x = true) :
    s.putResult x = { s with acc := Config.freeWord s.draws, draws := s.draws + 1 } := by
  simp [State.putResult, State.countDraw, State.resultWord, h, State.setAcc]

theorem State.not_drawn_of_inRange {x : Int} (hrange : x.natAbs ≤ 32767) : s.drawn x = false := by
  have hmag : x.natAbs < 32768 := by omega
  simp [State.drawn, hmag]

theorem State.drawn_of_overflow {x : Int} (hdraw : s.cfg.overflow = .draw) (hlarge : 32768 ≤ x.natAbs) :
    s.drawn x = true := by
  simp [State.drawn, hdraw, hlarge]

/-- ADD, SUB and MUL with an exact result in range, under either option. -/
theorem AluOp.exec_of_inRange {f : Word → Word → Int} (op : AluOp i a f) (ok : s.WordOk a.toNat)
    (hrange : (f s.acc (s.mem.readWord a.toNat)).natAbs ≤ 32767) :
    exec i s = .next (withAccAndFlags s (smenc (f s.acc (s.mem.readWord a.toNat)))) := by
  have hdrawn := State.not_drawn_of_inRange (s := s) hrange
  rw [op.exec_eq, State.combine_of_wordOk ok, State.putResultFlags, State.putResult_of_not_drawn hdrawn,
    State.resultWord, hdrawn]
  rfl

/-- ADD, SUB and MUL with an exact result out of range, under the option DRAW. -/
theorem AluOp.exec_of_overflow {f : Word → Word → Int} (op : AluOp i a f) (hdraw : s.cfg.overflow = .draw)
    (ok : s.WordOk a.toNat) (hlarge : 32768 ≤ (f s.acc (s.mem.readWord a.toNat)).natAbs) :
    exec i s = .next { withAccAndFlags s (Config.freeWord s.draws) with draws := s.draws + 1 } := by
  have hdrawn := State.drawn_of_overflow hdraw hlarge
  rw [op.exec_eq, State.combine_of_wordOk ok, State.putResultFlags, State.putResult_of_drawn hdrawn,
    State.resultWord, hdrawn]
  rfl

/-- Settles O52: a result is drawn exactly when it is out of range. -/
theorem overflowOptionDraws : Obligations.OverflowOptionDraws := by
  intro a s hdraw hok
  refine ⟨?_, fun hrange => congrArg Host.Outcome.next (State.putResult_of_not_drawn (State.not_drawn_of_inRange hrange)),
    fun hlarge => congrArg Host.Outcome.next (State.putResult_of_drawn (State.drawn_of_overflow hdraw hlarge))⟩
  simp only [List.forall_mem_cons]
  exact ⟨⟨(AluOp.add a).exec_of_inRange hok, (AluOp.add a).exec_of_overflow hdraw hok⟩,
    ⟨(AluOp.sub a).exec_of_inRange hok, (AluOp.sub a).exec_of_overflow hdraw hok⟩,
    ⟨(AluOp.mul a).exec_of_inRange hok, (AluOp.mul a).exec_of_overflow hdraw hok⟩, List.forall_mem_nil _⟩

/-! ### CAL -/

/-- Settles O22: a slot with room above it is in bounds, and the push stores one word there. -/
theorem callPushesReturnAddress : Obligations.CallPushesReturnAddress := by
  intro a s hvalid hwf hparity
  refine ⟨decodeWord_opcodeWord 0x6#4 a, fun room => ?_, execCal_of_full⟩
  obtain ⟨-, -, -, htop, -⟩ := hvalid
  have hok : s.WordOk s.sp.toNat := ⟨hparity, by omega⟩
  have hread := Memory.read_writeWord hwf s.sp.toNat s.pc
  refine ⟨s.mem.writeWord s.sp.toNat s.pc, execCal_of_room room hok, Memory.wf_writeWord hwf _ _, ?_, ?_,
    fun c hhi hlo => Memory.read_writeWord_of_ne hwf _ hhi hlo⟩
  · rw [hread, if_pos rfl, hiByte]
  · rw [hread, if_neg (by omega), if_pos rfl, loByte]

/-! ### PRS -/

/-- The scan finds a string that ends at a zero byte before the end of memory (R153). -/
theorem Memory.scan_of_string {m : Memory} {bs : List Byte} : ∀ {left n : Nat}, bs.length < left →
    m.read (n + bs.length) = 0x00#8 → (∀ i : Nat, (h : i < bs.length) → m.read (n + i) = bs[i] ∧ bs[i] ≠ 0x00#8) →
    m.scan left n = .ok bs := by
  induction bs with
  | nil =>
    intro left n hleft hend _
    obtain ⟨left, rfl⟩ := Nat.exists_eq_succ_of_ne_zero (Nat.ne_zero_of_lt hleft)
    rw [Memory.scan, if_pos (by simpa using hend)]
  | cons b bs ih =>
    intro left n hleft hend hbytes
    obtain ⟨left, rfl⟩ := Nat.exists_eq_succ_of_ne_zero (Nat.ne_zero_of_lt hleft)
    obtain ⟨hread, hnonzero⟩ : m.read n = b ∧ b ≠ 0x00#8 := hbytes 0 (Nat.succ_pos _)
    have hrest : m.scan left (n + 1) = .ok bs := by
      refine ih (by simpa using hleft) ?_ fun i hi => ?_
      · rw [← hend, List.length_cons]; congr 1; omega
      · have haddr : n + 1 + i = n + (i + 1) := by omega
        exact haddr ▸ hbytes (i + 1) (Nat.succ_lt_succ hi)
    rw [Memory.scan, if_neg (by rwa [hread]), hrest, hread]

/-- A scan that meets no zero byte ends at the first address out of bounds (R153). -/
theorem Memory.scan_of_nonzero {m : Memory} : ∀ {left n : Nat},
    (∀ c : Nat, n ≤ c → c < n + left → m.read c ≠ 0x00#8) → m.scan left n = .error (n + left) := by
  intro left
  induction left with
  | zero => intro n _; rfl
  | succ left ih =>
    intro n hnonzero
    have hrest : m.scan left (n + 1) = .error (n + 1 + left) := ih fun c hlow hhigh => hnonzero c (by omega) (by omega)
    rw [Memory.scan, if_neg (hnonzero n le_rfl (by omega)), hrest, Nat.add_right_comm, Nat.add_assoc]

/-- Settles O30: the two ends of the scan. -/
theorem printString : Obligations.PrintString := by
  intro a s
  refine ⟨decodeWord_opcodeWord 0xD#4 a, fun bs hbound hend hbytes => ?_, fun hnonzero => ?_⟩
  · have hscan : s.mem.scan (s.cfg.memSize - a.toNat) a.toNat = .ok bs :=
      Memory.scan_of_string (by omega) hend hbytes
    simp only [exec, execPrs, effectiveAddress_toNat, State.readString, hscan, State.emit]
  · have hscan : s.mem.scan (s.cfg.memSize - a.toNat) a.toNat = .error (max s.cfg.memSize a.toNat) := by
      rw [Memory.scan_of_nonzero fun c hlow hhigh => hnonzero c hlow (by omega)]
      congr 1; omega
    simp only [exec, execPrs, effectiveAddress_toNat, State.readString, hscan, State.trap_fatal, stoppedAtBound]

/-! ### The stops and the step -/

/-- Settles O25: the two normal stops are `halt` with their causes. -/
theorem normalStops : Obligations.NormalStops := fun x s =>
  ⟨(Halts.halt x).exec_eq s, (Halts.endSentinel x).exec_eq s⟩

/-- Settles O26: both illegal opcodes raise ILLEGAL_OPCODE. -/
theorem illegalOpcodeStops : Obligations.IllegalOpcodeStops := fun x s =>
  ⟨decodeWord_opcodeWord 0xE#4 x, decodeWord_opcodeWord 0xF#4 x, (State.Raises.illegalE (s := s) x).exec_eq,
    (State.Raises.illegalF (s := s) x).exec_eq, rfl⟩

theorem FatalCondition.code_bounds (k : FatalCondition) : 1 ≤ k.code ∧ k.code ≤ 4 := by
  cases k <;> decide

theorem FatalCondition.code_injective {k l : FatalCondition} (h : k.code = l.code) : k = l := by
  cases k <;> cases l <;> simp [FatalCondition.code] at h ⊢

theorem ExitStatus.code_injective {x y : ExitStatus} (h : x.code = y.code) : x = y := by
  match x, y with
  | .normal, .normal => rfl
  | .fatal k, .fatal l => rw [FatalCondition.code_injective h]
  | .normal, .fatal k => exact absurd h (Nat.ne_of_lt k.code_bounds.1)
  | .fatal k, .normal => exact absurd h (Nat.ne_of_gt k.code_bounds.1)

/-- Settles O27. -/
theorem fatalStopRecord : Obligations.FatalStopRecord :=
  ⟨fun _ _ _ _ _ => rfl, fun _ _ => ExitStatus.code_injective, FatalCondition.code_bounds, rfl⟩

/-- Settles O31. -/
theorem stepExecutesDecodedInstruction : Obligations.StepExecutesDecodedInstruction := fun _ => step_of_ok

/-- Settles O32. -/
theorem fetchFaultStops : Obligations.FetchFaultStops := fun _ => step_of_out

theorem step_of_stopped (hstop : s.run = .stopped) : step s = .fault .machineStopped := by
  simp only [step, hstop]

theorem runFor_of_stopped (hstop : s.run = .stopped) (k : Nat) : runFor k s = .next s := by
  cases k with
  | zero => rfl
  | succ k => simp only [runFor, hstop]

/-- Settles O33. -/
theorem stoppedMachineHasNoStep : Obligations.StoppedMachineHasNoStep := fun _ hstop =>
  ⟨step_of_stopped hstop, runFor_of_stopped hstop⟩

end Sys2Proof.Machine
end

section
/-! The call stack as a list of return addresses: pushes load the words of a region, pops read them back, with the
obligations of 43_control.md section 2 and R135, R136. -/

namespace Sys2Proof.Machine

open Sys2Proof.Statements

variable {s t : State}

/-! ### Pushes -/

/-- Pushes that fit leave the return addresses as a region of words from the old cursor up. -/
theorem pushAll_of_room {vs : List Word} (hs : s.StackReady)
    (room : s.sp.toNat + 2 * vs.length ≤ s.cfg.stackTop.toNat) :
    pushAll vs s = .ok { s with
      mem := s.mem.loadWords s.sp.toNat vs, sp := BitVec.ofNat 16 (s.sp.toNat + 2 * vs.length) } := by
  induction vs generalizing s with
  | nil => simp [pushAll, Memory.loadWords]
  | cons v vs ih =>
    rw [List.length_cons] at room
    have hroom : s.sp.toNat + 2 ≤ s.cfg.stackTop.toNat := by omega
    have hsp := State.sp_add_two_toNat hroom
    have hlen : s.sp.toNat + 2 + 2 * vs.length = s.sp.toNat + 2 * (vs.length + 1) := by omega
    rw [pushAll, State.push_of_ok hroom (hs.wordOk_slot hroom)]
    have hrest := ih (hs.push hroom (s.mem.writeWord s.sp.toNat v)) (by simp only [hsp]; omega)
    simpa only [hsp, hlen, List.length_cons, Memory.loadWords] using hrest

/-- Pushes that complete fit below the top of the region (R133). -/
theorem room_of_pushAll {vs : List Word} (hs : s.StackReady) (h : pushAll vs s = .ok t) :
    s.sp.toNat + 2 * vs.length ≤ s.cfg.stackTop.toNat := by
  induction vs generalizing s with
  | nil => exact hs.sp_high
  | cons v vs ih =>
    rcases s.push_cases v with ⟨room, -, e⟩ | ⟨-, e⟩ | ⟨-, -, e⟩ | ⟨-, -, e⟩ <;> rw [pushAll, e] at h
    · have hrest := ih (hs.push room _) h
      simp only [State.sp_add_two_toNat room] at hrest
      rw [List.length_cons]
      omega
    all_goals cases h

theorem pushAll_ok_iff {vs : List Word} (hs : s.StackReady) :
    (∃ t, pushAll vs s = .ok t) ↔ s.sp.toNat + 2 * vs.length ≤ s.cfg.stackTop.toNat :=
  ⟨fun ⟨_, h⟩ => room_of_pushAll hs h, fun room => ⟨_, pushAll_of_room hs room⟩⟩

/-! ### Pops -/

/-- Pops give back the words in the slots below the cursor, the highest first, and move the cursor alone (R134). -/
theorem popAll_of_slots {ws : List Word} (hs : s.StackReady)
    (hdepth : s.cfg.stackBase.toNat + 2 * ws.length ≤ s.sp.toNat)
    (hslots : ∀ i : Nat, (h : i < ws.length) → s.mem.readWord (s.sp.toNat - 2 * (i + 1)) = ws[i]) :
    popAll ws.length s = .ok (ws, { s with sp := BitVec.ofNat 16 (s.sp.toNat - 2 * ws.length) }) := by
  induction ws generalizing s with
  | nil => simp [popAll]
  | cons w ws ih =>
    rw [List.length_cons] at hdepth
    have hne : s.sp ≠ s.cfg.stackBase := fun h => by rw [h] at hdepth; omega
    have hsp := hs.sp_sub_two_toNat hne
    have htop : s.mem.readWord (s.sp - 2#16).toNat = w := hsp ▸ hslots 0 (Nat.succ_pos _)
    have hlen : s.sp.toNat - 2 - 2 * ws.length = s.sp.toNat - 2 * (ws.length + 1) := by omega
    have hrest : popAll ws.length (s.setSp (s.sp - 2#16)) =
        .ok (ws, { s with sp := BitVec.ofNat 16 (s.sp.toNat - 2 * (ws.length + 1)) }) := by
      rw [← hlen, ← hsp]
      refine ih (hs.pop hne) (by simp only [State.setSp_sp, State.setSp_cfg, hsp]; omega) fun i hi => ?_
      have haddr : s.sp.toNat - 2 - 2 * (i + 1) = s.sp.toNat - 2 * (i + 1 + 1) := by omega
      simp only [State.setSp_sp, State.setSp_mem, hsp, haddr]
      exact hslots (i + 1) (Nat.succ_lt_succ hi)
    simp only [List.length_cons, popAll, State.pop_of_nonempty hne (hs.wordOk_below hne), hrest, htop]

/-- As many pops after the pushes give the return addresses in reverse order, and the old cursor. -/
theorem popAll_pushed {vs : List Word} (hs : s.StackReady) (hwf : s.mem.wf)
    (room : s.sp.toNat + 2 * vs.length ≤ s.cfg.stackTop.toNat) :
    popAll vs.length { s with
        mem := s.mem.loadWords s.sp.toNat vs, sp := BitVec.ofNat 16 (s.sp.toNat + 2 * vs.length) } =
      .ok (vs.reverse, { s with mem := s.mem.loadWords s.sp.toNat vs }) := by
  have hsp : (BitVec.ofNat 16 (s.sp.toNat + 2 * vs.length)).toNat = s.sp.toNat + 2 * vs.length :=
    (BitVec.toNat_ofNat _ _).trans <| Nat.mod_eq_of_lt (lt_of_le_of_lt room s.cfg.stackTop.isLt)
  have heven := hs.sp_even
  have hlow := hs.sp_low
  have hpop := popAll_of_slots (ws := vs.reverse)
    (s := { s with mem := s.mem.loadWords s.sp.toNat vs, sp := BitVec.ofNat 16 (s.sp.toNat + 2 * vs.length) })
    ⟨hs.cfg_valid, by simp only [hsp]; omega, by simp only [hsp]; omega, by simpa only [hsp] using room⟩
    (by simp only [hsp, List.length_reverse]; omega) fun i hi => by
      rw [List.length_reverse] at hi
      have haddr : s.sp.toNat + 2 * vs.length - 2 * (i + 1) = s.sp.toNat + 2 * (vs.length - 1 - i) := by omega
      rw [List.getElem_reverse]
      simp only [hsp, haddr]
      exact Memory.readWord_loadWords vs hwf (by omega)
  simpa only [List.length_reverse, hsp, Nat.add_sub_cancel, BitVec.ofNat_toNat, BitVec.setWidth_eq] using hpop

/-- Settles O45: pushes complete exactly when they fit, and leave a region of words that pops read back. -/
theorem callStackIsLifo : Obligations.CallStackIsLifo := by
  intro s vs hinv
  have hs := hinv.stackReady
  refine ⟨pushAll_ok_iff hs, fun hempty => ?_, fun t hpush => ?_⟩
  · have hlow := hs.sp_low
    have hhigh := hs.sp_high
    rw [pushAll_ok_iff hs, Config.stackCapacity, ← hempty]
    omega
  · have room := room_of_pushAll hs hpush
    rw [pushAll_of_room hs room] at hpush
    cases hpush
    exact ⟨popAll_pushed hs hinv.mem_wf room, fun c hc => Memory.read_loadWords_of_outside vs hinv.mem_wf hc⟩

/-! ### CAL, then RET -/

/-- A word is read from its two bytes alone. -/
theorem Memory.readWord_congr {m m' : Memory} {n : Nat} (hhi : m.read n = m'.read n)
    (hlo : m.read (n + 1) = m'.read (n + 1)) : m.readWord n = m'.readWord n := by
  rw [Memory.readWord, Memory.readWord, hhi, hlo]

/-- Settles O24: the slot below the cursor is the one CAL wrote, and holds the advanced PC. -/
theorem callThenReturn : Obligations.CallThenReturn := by
  intro a s t u hinv hexec hsame hrun hcfg hsp hhi hlo
  rcases execCal_next hexec with ⟨room, ok, rfl⟩ | ⟨-, rfl⟩ | ⟨-, -, rfl⟩
  · have hs := hinv.stackReady.push room s.mem
    have hback : u.sp - 2#16 = s.sp := by rw [hsp]; exact BitVec.add_sub_cancel _ _
    have hslot : u.mem.readWord s.sp.toNat = s.pc :=
      (Memory.readWord_congr hhi hlo).trans (Memory.readWord_writeWord hinv.mem_wf _ _)
    have nonempty : u.sp ≠ u.cfg.stackBase := by
      rw [hsp, hcfg]
      refine fun h => absurd (congrArg BitVec.toNat h) ?_
      have hlow := hinv.sp_low
      simp only [State.sp_add_two_toNat room]
      omega
    have hok : u.WordOk (u.sp - 2#16).toNat := by rw [hback, State.WordOk, hcfg]; exact ok
    rw [execRet_of_nonempty nonempty hok, hback, hslot]
  all_goals rw [hrun] at hsame; cases hsame

end Sys2Proof.Machine
end

section
/-! Fetch coherence, the registers no step reads, runs under fuel, and the loaded image, with the obligations of
20_memory.md section 7, 10_state.md section 10, 40_engine_cycle.md R86 to R88 and 70_reset_and_hazards.md section 1. -/

namespace Sys2Proof.Machine

variable {s t u : State} {i : Instr} {a : Operand}

/-! ### A store and the next fetch -/

/-- A step from a known word at a known address. -/
theorem step_of_word {n : Nat} {w : Word} (hrun : s.run = .running) (hpc : s.pc.toNat = n) (hok : s.WordOk n)
    (hword : s.mem.readWord n = w) : step s = exec (decodeWord w) (s.latch w) := by
  subst hpc hword
  exact step_of_ok hrun hok

/-- Settles O46: the store leaves ACC in the word at EA, where the fetch from the next address or from the same one reads it. -/
theorem storeSeenByNextFetch : Obligations.StoreSeenByNextFetch := by
  intro s a hinv hrun hfetch hok hdec
  have hstep := step_of_ok hrun hfetch
  rw [hdec, execSta_of_ok (s := s.latch (s.mem.readWord s.pc.toNat)) hok] at hstep
  have hstored : (s.mem.writeWord a.toNat s.acc).readWord a.toNat = s.acc :=
    Memory.readWord_writeWord hinv.mem_wf _ _
  refine ⟨_, hstep, rfl, rfl, fun hnext => ?_, fun hself => ?_⟩
  · have hpc : (s.pc + 2#16).toNat = a.toNat := by
      have := a.isLt
      bv_omega
    exact step_of_word hrun hpc hok hstored
  · exact step_of_word hrun hself.symm hok hstored

/-! ### IR and STOP before a step -/

/-- The state with another stop record, which a machine that runs has not written (R31). -/
def State.withStop (s : State) (r : StopRecord) : State := { s with stop := r }

/-- The state a step ends in when `r` stood in STOP before it: a stop writes STOP over it (R84, R176). -/
def State.keepStop (r : StopRecord) (t : State) : State := { t with stop := if t.run = .stopped then t.stop else r }

/-- An outcome with its next state, if it is one, changed. -/
def mapNext (f : State → State) : Host.Outcome State Fault Refusal → Host.Outcome State Fault Refusal
  | .next t => .next (f t)
  | .fault r => .fault r
  | .refused r => .refused r

theorem State.keepStop_of_running {r : StopRecord} (hrun : t.run = .running) : t.keepStop r = t.withStop r := by
  simp [State.keepStop, State.withStop, hrun]

theorem State.trap_withStop (r : StopRecord) (e : Trap) :
    (s.withStop r).trap e = mapNext (State.keepStop r) (s.trap e) := by
  cases e <;> rfl

section StopRecord

variable {r : StopRecord} {n : Nat}

/-- An instruction that goes on leaves STOP to what stood there. -/
theorem exec_withStop_of_next (h : exec i s = .next t) (h' : exec i (s.withStop r) = .next (t.withStop r))
    (hrun : t.run = .running) : exec i (s.withStop r) = mapNext (State.keepStop r) (exec i s) := by
  rw [h, h', mapNext, State.keepStop_of_running hrun]

/-- An instruction with one word access, which goes on or is stopped by the check of that access: the check does not look
at STOP. -/
theorem exec_withStop_of_word (hok : s.WordOk n → exec i s = .next t)
    (hok' : s.WordOk n → exec i (s.withStop r) = .next (t.withStop r)) (hrun : t.run = .running)
    (htrap : ∀ e, s.wordTrap n = some e → exec i s = s.trap e)
    (htrap' : ∀ e, s.wordTrap n = some e → exec i (s.withStop r) = (s.withStop r).trap e) :
    exec i (s.withStop r) = mapNext (State.keepStop r) (exec i s) := by
  rcases s.wordTrap_cases n with ⟨ok, -⟩ | ⟨-, e⟩ | ⟨-, -, e⟩
  · exact exec_withStop_of_next (hok ok) (hok' ok) hrun
  all_goals rw [htrap _ e, htrap' _ e, State.trap_withStop]

/-- The same for an instruction whose access is its word operand. -/
theorem exec_withStop_of_wordOperand (hop : i.wordOperand = some a) (hok : s.WordOk a.toNat → exec i s = .next t)
    (hok' : s.WordOk a.toNat → exec i (s.withStop r) = .next (t.withStop r)) (hrun : t.run = .running) :
    exec i (s.withStop r) = mapNext (State.keepStop r) (exec i s) :=
  exec_withStop_of_word hok hok' hrun (fun _ => exec_of_wordTrap hop)
    fun _ h => exec_of_wordTrap (s := s.withStop r) hop h

theorem State.putResult_withStop (x : Int) : (s.withStop r).putResult x = (s.putResult x).withStop r := by
  have hdrawn : (s.withStop r).drawn x = s.drawn x := rfl
  simp only [State.putResult, State.countDraw, State.resultWord, hdrawn]
  split <;> rfl

theorem State.putResultFlags_withStop (x : Int) :
    (s.withStop r).putResultFlags x = (s.putResultFlags x).withStop r := by
  rw [State.putResultFlags, State.putResult_withStop]
  rfl

theorem AluOp.wordOperand_eq {f : Word → Word → Int} (op : AluOp i a f) : i.wordOperand = some a := by
  cases op <;> rfl

theorem AluOp.exec_withStop {f : Word → Word → Int} (op : AluOp i a f) (hrun : s.run = .running) :
    exec i (s.withStop r) = mapNext (State.keepStop r) (exec i s) := by
  refine exec_withStop_of_wordOperand op.wordOperand_eq
    (fun ok => (op.exec_eq s).trans (State.combine_of_wordOk ok f)) (fun ok => ?_) (by simpa using hrun)
  rw [op.exec_eq, State.combine_of_wordOk (s := s.withStop r) ok, State.putResultFlags_withStop]
  rfl

theorem State.BranchesOn.exec_withStop {flag : Bool} (h : s.BranchesOn i flag a)
    (h' : (s.withStop r).BranchesOn i flag a) (hrun : s.run = .running) :
    exec i (s.withStop r) = mapNext (State.keepStop r) (exec i s) := by
  refine exec_withStop_of_next h.exec_eq ?_ (by rwa [State.branchIf_eq])
  rw [h'.exec_eq]
  cases flag <;> rfl

theorem execCal_withStop (hrun : s.run = .running) :
    exec (.cal a) (s.withStop r) = mapNext (State.keepStop r) (exec (.cal a) s) := by
  rcases Nat.lt_or_ge s.cfg.stackTop.toNat (s.sp.toNat + 2) with full | room
  · rw [execCal_of_full full, execCal_of_full (s := s.withStop r) full]; rfl
  · exact exec_withStop_of_word (execCal_of_room room) (execCal_of_room (s := s.withStop r) room) hrun
      (fun _ => execCal_of_wordTrap room) fun _ h => execCal_of_wordTrap (s := s.withStop r) room h

theorem execRet_withStop (hrun : s.run = .running) :
    exec .ret (s.withStop r) = mapNext (State.keepStop r) (exec .ret s) := by
  by_cases empty : s.sp = s.cfg.stackBase
  · rw [execRet_of_empty empty, execRet_of_empty (s := s.withStop r) empty]; rfl
  · exact exec_withStop_of_word (execRet_of_nonempty empty) (execRet_of_nonempty (s := s.withStop r) empty) hrun
      (fun _ => execRet_of_wordTrap empty) fun _ h => execRet_of_wordTrap (s := s.withStop r) empty h

theorem execPrs_withStop (hrun : s.run = .running) :
    exec (.prs a) (s.withStop r) = mapNext (State.keepStop r) (exec (.prs a) s) := by
  rcases s.readString_cases a.toNat with ⟨bs, found, nonzero⟩ | endless
  · exact exec_withStop_of_next (State.Sends.str a bs found nonzero).exec_eq
      (State.Sends.exec_eq (s := s.withStop r) (.str a bs found nonzero)) hrun
  · rw [(State.Raises.scanBound a endless).exec_eq, State.Raises.exec_eq (s := s.withStop r) (.scanBound a endless)]
    rfl

/-- No instruction reads STOP: it stays unless the instruction stops and writes it over (R31). -/
theorem exec_withStop (hrun : s.run = .running) :
    exec i (s.withStop r) = mapNext (State.keepStop r) (exec i s) := by
  cases i with
  | lda a => exact exec_withStop_of_wordOperand rfl execLda_of_ok (execLda_of_ok (s := s.withStop r)) hrun
  | sta a => exact exec_withStop_of_wordOperand rfl execSta_of_ok (execSta_of_ok (s := s.withStop r)) hrun
  | prt a => exact exec_withStop_of_wordOperand rfl execPrt_of_ok (execPrt_of_ok (s := s.withStop r)) hrun
  | add a => exact (AluOp.add a).exec_withStop hrun
  | sub a => exact (AluOp.sub a).exec_withStop hrun
  | mul a => exact (AluOp.mul a).exec_withStop hrun
  | jmp a => exact State.BranchesOn.exec_withStop (.jmp a) (.jmp a) hrun
  | brz a => exact State.BranchesOn.exec_withStop (.brz a) (.brz a) hrun
  | brn a => exact State.BranchesOn.exec_withStop (.brn a) (.brn a) hrun
  | cal a => exact execCal_withStop hrun
  | ret => exact execRet_withStop hrun
  | prs a => exact execPrs_withStop hrun
  | iac => exact exec_withStop_of_next rfl (congrArg Host.Outcome.next (State.putResult_withStop _)) (by simpa using hrun)
  | prc ignored code => exact exec_withStop_of_next rfl rfl hrun
  | _ => rfl

/-- Settles O47: the fetch writes IR over or leaves it with a bound stop, and no instruction reads STOP. -/
theorem unreadRegistersHaveNoEffect : Obligations.UnreadRegistersHaveNoEffect := by
  intro s w r hrun
  have hrun' : State.run { s with ir := w, stop := r } = .running := hrun
  rcases s.wordTrap_cases s.pc.toNat with ⟨ok, -⟩ | ⟨out, -⟩ | ⟨hfault, hodd, -⟩
  · have hstep : step { s with ir := w, stop := r } = mapNext (State.keepStop r) (step s) :=
      calc step { s with ir := w, stop := r }
          = exec (decodeWord (s.mem.readWord s.pc.toNat)) ((s.latch (s.mem.readWord s.pc.toNat)).withStop r) :=
            step_of_ok hrun' ok
        _ = mapNext (State.keepStop r) (step s) := by rw [step_of_ok hrun ok]; exact exec_withStop hrun
    exact ⟨fun q h => by rw [hstep, h]; rfl, fun t h => ⟨t.ir, .inl rfl, by rw [hstep, h]; rfl⟩⟩
  · rw [step_of_out hrun out, step_of_out hrun' out]
    refine ⟨fun q h => (by cases h), fun t h => ⟨w, .inr ⟨rfl, out⟩, ?_⟩⟩
    cases h
    rfl
  · rw [step_of_odd hrun hfault hodd, step_of_odd hrun' hfault hodd]
    exact ⟨fun q h => h, fun t h => by cases h⟩

end StopRecord

/-! ### Runs -/

theorem runFor_of_next {k : Nat} (hrun : s.run = .running) (hstep : step s = .next u) :
    runFor (k + 1) s = runFor k u := by
  simp only [runFor, hrun, hstep]

/-- Runs compose (R198). -/
theorem runFor_add {k j : Nat} (h : runFor k s = .next t) : runFor (k + j) s = runFor j t := by
  induction k generalizing s with
  | zero => cases h; rw [Nat.zero_add]
  | succ k ih =>
    cases hrun : s.run with
    | stopped =>
      rw [runFor_of_stopped hrun] at h ⊢
      cases h
      rw [runFor_of_stopped hrun]
    | running =>
      cases hstep : step s with
      | next u =>
        rw [Nat.add_right_comm, runFor_of_next hrun hstep]
        rw [runFor_of_next hrun hstep] at h
        exact ih h
      | fault f => simp only [runFor, hrun, hstep] at h; cases h
      | refused q => simp only [runFor, hrun, hstep] at h; cases h

theorem State.exitStatus_of_running (hrun : s.run = .running) : s.exitStatus = none := by
  simp only [State.exitStatus, hrun]

theorem State.exitStatus_of_stopped (hstop : s.run = .stopped) : s.exitStatus = some s.stop.status := by
  simp only [State.exitStatus, hstop]

/-- Settles O48: runs compose, a stopped machine stays, and the exit status follows RUN. -/
theorem fuelOnlyBoundsARun : Obligations.FuelOnlyBoundsARun := by
  refine ⟨fun k j s t h hstop => (runFor_add h).trans (runFor_of_stopped hstop j), fun k j s t h => runFor_add h, fun s => ?_⟩
  cases hrun : s.run with
  | running => simp [State.exitStatus_of_running hrun, State.StoppedNormally, hrun]
  | stopped => simp [State.exitStatus_of_stopped hrun, State.StoppedNormally, hrun]

/-! ### The loaded image -/

theorem Image.read_loaded_of_outside (img : Image) {n : Nat}
    (hdata : n < img.data.base ∨ img.data.base + 2 * img.data.words.length ≤ n)
    (hcode : n < img.code.base ∨ img.code.base + 2 * img.code.words.length ≤ n) : img.loaded.read n = 0x00#8 :=
  calc img.loaded.read n
      = (Memory.loadWords [] img.data.base img.data.words).read n :=
        Memory.read_loadWords_of_outside _ (Memory.wf_loadWords _ Memory.wf_nil _) hcode
    _ = Memory.read [] n := Memory.read_loadWords_of_outside _ Memory.wf_nil hdata

/-- Each word of the two regions is loaded: CODE, which is loaded last, does not touch DATA (R50). -/
theorem Image.readWord_loaded {img : Image} (hdisjoint : img.data.Disjoint img.code) {q : Region}
    (hq : q = img.data ∨ q = img.code) {k : Nat} (hk : k < q.words.length) :
    img.loaded.readWord (q.base + 2 * k) = q.words[k] := by
  have hdata := Memory.wf_loadWords img.data.words Memory.wf_nil img.data.base
  rcases hq with rfl | rfl
  · calc img.loaded.readWord (img.data.base + 2 * k)
        = (Memory.loadWords [] img.data.base img.data.words).readWord (img.data.base + 2 * k) :=
          Memory.readWord_congr (Memory.read_loadWords_of_outside _ hdata (by omega))
            (Memory.read_loadWords_of_outside _ hdata (by omega))
      _ = img.data.words[k] := Memory.readWord_loadWords _ Memory.wf_nil hk
  · exact Memory.readWord_loadWords _ hdata hk

/-- Settles O49: the seeds are written over the loaded regions, and leave what they do not overlap. -/
theorem loadedImageReadsBack : Obligations.LoadedImageReadsBack := by
  intro c img hdisjoint
  refine ⟨fun q hq k hk hapart => ?_, fun pre post n x hseeds hpost => ?_, fun n hn => ⟨?_, fun hdata hcode => ?_⟩, rfl⟩
  · exact (Memory.readWord_seed_of_apart img.seeds img.loaded_wf hapart).trans (Image.readWord_loaded hdisjoint hq hk)
  · have hmem : (boot c img).mem = img.loaded.seed (pre ++ (n, x) :: post) := congrArg img.loaded.seed hseeds
    rw [hmem, Memory.readWord_seed_of_mem pre post img.loaded_wf n x hpost]
  · exact Memory.read_seed_of_outside img.seeds img.loaded_wf hn
  · exact (Memory.read_seed_of_outside img.seeds img.loaded_wf hn).trans (img.read_loaded_of_outside hdata hcode)

end Sys2Proof.Machine
end
